-- ==== Sys2Proof/Word.lean ====
section
/-! DEFINITION. The words of the pyCyberGear protocol codec block: the byte, the two IEEE 754 bit patterns, and
the byte buffers that stand on its ports (spec/00_scope.md R8, R9, R11; spec/20_memory.md R40). -/

namespace Sys2Proof

/-- The 8-bit byte (R40). Bit 0 is the least significant bit (R8). -/
abbrev Byte := BitVec 8

/-- An IEEE 754 binary64 bit pattern: sign bit 63, exponent bits 62:52, fraction bits 51:0 (R11). -/
abbrev F64 := BitVec 64

/-- A 32-bit port value: unsigned, two's complement or a binary32 pattern, by type tag (R27, R63). -/
abbrev Word32 := BitVec 32

/-- A 4-byte buffer, `b0` at offset 0 (R9): the scalar bytes and the header bytes `H[0..3]` (R40). -/
structure Bytes4 where
  b0 : Byte
  b1 : Byte
  b2 : Byte
  b3 : Byte
  deriving DecidableEq, Repr

/-- An 8-byte buffer, `b0` at offset 0 (R9): the payload of a LogicalFrame (R66). -/
structure Bytes8 where
  b0 : Byte
  b1 : Byte
  b2 : Byte
  b3 : Byte
  b4 : Byte
  b5 : Byte
  b6 : Byte
  b7 : Byte
  deriving DecidableEq, Repr

/-- The receive buffer as its port carries it: "a list of bytes of any length from 0 to 255", the first byte at offset
0 (spec/10_state.md R27). -/
structure RecvBuffer where
  bytes : List Byte
  fits  : bytes.length ≤ 255
  deriving DecidableEq, Repr

/-- The bytes of a 4-byte buffer in offset order. -/
def Bytes4.toList (b : Bytes4) : List Byte := [b.b0, b.b1, b.b2, b.b3]

/-- The bytes of an 8-byte buffer in offset order. -/
def Bytes8.toList (b : Bytes8) : List Byte := [b.b0, b.b1, b.b2, b.b3, b.b4, b.b5, b.b6, b.b7]

end Sys2Proof
end

