-- ==== Sys2Proof/Config.lean ====
section
/-! DEFINITION. What one instance of the block fixes at construction: the configuration record `CFG`
(spec/00_scope.md R6, spec/10_state.md R26), the numerics record `CFG.fp` (R11), the values of the instance
that `State.reset` names (notes/assumptions/1.md to 4.md), and the one free value (notes/assumptions/6.md). -/

namespace Sys2Proof

/-- `CFG.VARIANT`, coded 0 = A, 1 = B (R26): which header word and which envelope the instance speaks. -/
inductive Variant where
  | a
  | b
  deriving DecidableEq, Repr

/-- `CFG.REPLY_ROUTE`, coded 0 = LITERAL, 1 = FIRMWARE (R26): where `RX.DECODE` finds the status word and the
reply id (spec/44_fault_classifier.md R200). -/
inductive ReplyRoute where
  | literal
  | firmware
  deriving DecidableEq, Repr

/-- The index `q` of `CFG.RANGE[q]`: POS = 0, VEL = 1, TRQ = 2, KP = 3, KD = 4 (R26). -/
inductive Quantity where
  | pos
  | vel
  | trq
  | kp
  | kd
  deriving DecidableEq, Repr

/-- A PhysicalRange `(min, max, bits)` as raw data (R12); `rangeValid` says when it is valid. -/
structure PhysicalRange where
  min  : F64
  max  : F64
  bits : BitVec 6
  deriving DecidableEq, Repr

/-- The configuration record `CFG` less `CFG.fp` (R6, R26): read by operations, written by none, sampled when
reset is released (spec/70_reset_and_hazards.md R260). -/
structure Cfg where
  variant    : Variant
  posRange   : PhysicalRange
  velRange   : PhysicalRange
  trqRange   : PhysicalRange
  kpRange    : PhysicalRange
  kdRange    : PhysicalRange
  replyRoute : ReplyRoute
  aSof       : Byte
  aLen       : Byte
  aRsv       : Byte
  bSof0      : Byte
  bSof1      : Byte
  bEof0      : Byte
  bEof1      : Byte
  deriving DecidableEq, Repr

/-- `CFG.RANGE[q]` (R26). -/
def Cfg.range (c : Cfg) : Quantity → PhysicalRange
  | .pos => c.posRange
  | .vel => c.velRange
  | .trq => c.trqRange
  | .kp  => c.kpRange
  | .kd  => c.kdRange

/-- `CFG.fp` (R11): the record of total functions the codec's arithmetic is written over, "not a register: the
arithmetic the datapath implements" (R26). The instance this hardware takes is `Machine.binary64`. -/
structure Numerics where
  add        : F64 → F64 → F64
  sub        : F64 → F64 → F64
  mul        : F64 → F64 → F64
  div        : F64 → F64 → F64
  lt         : F64 → F64 → Bool
  gt         : F64 → F64 → Bool
  isNaN      : F64 → Bool
  isFinite   : F64 → Bool
  ofNat      : Nat → F64
  floorToNat : F64 → Nat

/-- The four rounded operations of `CFG.fp`, to name where a NaN result comes from. -/
inductive FpOp where
  | add
  | sub
  | mul
  | div
  deriving DecidableEq, Repr

/-- FREE VALUE (notes/assumptions/6.md): sign (bit 51) and payload (bits 50:0) of the quiet NaN that an
operation of `CFG.fp` gives. No operation of the block reaches it: NaN never enters an arithmetic operation
(spec/40_fixed_point_codec.md R113). -/
opaque Config.nanSignAndPayload : FpOp → F64 → F64 → BitVec 52

/-- `CFG.RANGE[POS]` = (-12.5, 12.5, 16), the one range the spec gives (R6, R31). -/
def Config.posRange : PhysicalRange :=
  { min := 0xC029000000000000#64, max := 0x4029000000000000#64, bits := 16#6 }

/-- The straps of the instance that `State.reset` is the reset of. The seven envelope bytes are R6's defaults;
the variant and the reply route are DESIGN CHOICE (notes/assumptions/1.md, 2.md), the four open ranges are the
spec's general-knowledge instance G6, PRESUMED (notes/assumptions/3.md), and the bytes are instance G1, PRESUMED
(notes/assumptions/4.md). No statement rests on any of them. -/
def Config.instanceStraps : Cfg where
  variant    := .b
  posRange   := Config.posRange
  velRange   := { min := 0xC03E000000000000#64, max := 0x403E000000000000#64, bits := 16#6 }
  trqRange   := { min := 0xC028000000000000#64, max := 0x4028000000000000#64, bits := 16#6 }
  kpRange    := { min := 0#64, max := 0x407F400000000000#64, bits := 16#6 }
  kdRange    := { min := 0#64, max := 0x4014000000000000#64, bits := 16#6 }
  replyRoute := .literal
  aSof       := 0xAA#8
  aLen       := 0x01#8
  aRsv       := 0x00#8
  bSof0      := 0x41#8
  bSof1      := 0x54#8
  bEof0      := 0x0D#8
  bEof1      := 0x0A#8

/-- Sampling the straps when reset is released (R260): every OPEN field is the instance's own, and
`CFG.RANGE[POS]` holds the value R31 states, whatever is strapped (notes/assumptions/14.md). -/
def Cfg.sample (straps : Cfg) : Cfg := { straps with posRange := Config.posRange }

end Sys2Proof
end

