-- ==== Sys2Proof/Machine/State.lean ====
section
/-! DEFINITION. The machine's state as plain data. The block has no mutable architectural state: no register,
no program counter, no flag, no memory, no mode (spec/10_state.md R21 to R25, spec/20_memory.md R40). What the
spec does give it is the configuration record (R26), the request ports (R27) and the response ports (R28); the
host's pending moves (spec/70_reset_and_hazards.md R266) and the responses it has taken stand beside them so that
one deterministic step can run a sequence of requests. -/

namespace Sys2Proof.Machine

/-- The status codes of a response (spec/60_exceptions.md R231). Codes 9 to 15 are never produced, so the type
has nine constructors (spec/93_implementation_defined.md U13). -/
inductive Status where
  | ok
  | malformedFrame
  | unknownTypeTag
  | invalidRange
  | invalidOperand
  | valueOutOfRange
  | illFormedFrame
  | illegalOp
  | notDecodable
  deriving DecidableEq, Repr

/-- `out.mode` (R28): the decoded mode field; value 3 is reserved and is none of the three named modes
(spec/30_encoding.md R81). -/
inductive ModeStatus where
  | reset
  | calibrate
  | run
  | reserved3
  deriving DecidableEq, Repr

/-- `out.kind` (R28): which decode path of `RX.DECODE` ran. -/
inductive ReplyKind where
  | motionStatus
  | faultReport
  deriving DecidableEq, Repr

/-- The request ports (R27), `OP` first. `in.len` is the length of `buf` and is stored once, there
(notes/assumptions/9.md). -/
structure Request where
  op         : Byte
  x          : F64
  min        : F64
  max        : F64
  bits       : BitVec 6
  u          : Word32
  val        : Word32
  b4         : Bytes4
  dlc        : Byte
  command    : Byte
  senderTag  : BitVec 16
  deviceId   : Byte
  payload    : Bytes8
  h          : Bytes4
  buf        : RecvBuffer
  statusWord : BitVec 16
  deriving DecidableEq, Repr

/-- The request ports when the host drives nothing: all zero, a value no step reads before the host presents a
request (R31 gives the ports no value; DESIGN CHOICE, notes/assumptions/5.md). -/
def Request.undriven : Request where
  op         := 0#8
  x          := 0#64
  min        := 0#64
  max        := 0#64
  bits       := 0#6
  u          := 0#32
  val        := 0#32
  b4         := ⟨0#8, 0#8, 0#8, 0#8⟩
  dlc        := 0#8
  command    := 0#8
  senderTag  := 0#16
  deviceId   := 0#8
  payload    := ⟨0#8, 0#8, 0#8, 0#8, 0#8, 0#8, 0#8, 0#8⟩
  h          := ⟨0#8, 0#8, 0#8, 0#8⟩
  buf        := ⟨[], Nat.zero_le 255⟩
  statusWord := 0#16

/-- The result ports (R28). A port the operation does not write holds no defined value: `none`
(spec/93_implementation_defined.md U14, "an `Except` or option type"). -/
structure OutPorts where
  u               : Option Word32 := none
  y               : Option F64 := none
  b4              : Option Bytes4 := none
  val             : Option Word32 := none
  h               : Option Bytes4 := none
  dlc             : Option Byte := none
  command         : Option (BitVec 5) := none
  senderTag       : Option (BitVec 16) := none
  deviceId        : Option Byte := none
  payload         : Option Bytes8 := none
  env             : Option (List Byte) := none
  envLen          : Option Byte := none
  fault           : Option Bool := none
  faultSet        : Option (BitVec 6) := none
  modeRaw         : Option (BitVec 2) := none
  mode            : Option ModeStatus := none
  repUncal        : Option Bool := none
  repPhaseAOc     : Option Bool := none
  repOvertempWarn : Option Bool := none
  repOverloadMask : Option Byte := none
  repOverload     : Option Bool := none
  posU            : Option (BitVec 16) := none
  velU            : Option (BitVec 16) := none
  trqU            : Option (BitVec 16) := none
  tempRaw         : Option (BitVec 16) := none
  pos             : Option F64 := none
  vel             : Option F64 := none
  trq             : Option F64 := none
  tempC           : Option F64 := none
  replyId         : Option Byte := none
  kind            : Option ReplyKind := none
  deriving DecidableEq, Repr

/-- No result port holds a defined value (spec/60_exceptions.md R236). -/
def OutPorts.undefined : OutPorts := {}

/-- The name of a result port (R28). -/
inductive PortName where
  | u | y | b4 | val | h | dlc | command | senderTag | deviceId | payload | env | envLen
  | fault | faultSet | modeRaw | mode
  | repUncal | repPhaseAOc | repOvertempWarn | repOverloadMask | repOverload
  | posU | velU | trqU | tempRaw | pos | vel | trq | tempC
  | replyId | kind
  deriving DecidableEq, Repr

/-- A response: `STATUS` and the result ports (R28). -/
structure Response where
  status : Status
  out    : OutPorts
  deriving DecidableEq, Repr

/-- The FaultReport a status word gives (spec/44_fault_classifier.md R201 to R203). -/
structure StatusFaults where
  faultSet : BitVec 6
  fault    : Bool
  modeRaw  : BitVec 2
  mode     : ModeStatus
  deriving DecidableEq, Repr

/-- The FaultReport a fault-report payload gives (spec/44_fault_classifier.md R206). -/
structure ReportFaults where
  uncal        : Bool
  overloadMask : Byte
  overload     : Bool
  phaseAOc     : Bool
  overtempWarn : Bool
  deriving DecidableEq, Repr

/-- The decoded telemetry of a motion-status payload (spec/44_fault_classifier.md R211). -/
structure Telemetry where
  posU    : BitVec 16
  velU    : BitVec 16
  trqU    : BitVec 16
  tempRaw : BitVec 16
  pos     : F64
  vel     : F64
  trq     : F64
  tempC   : F64
  deriving DecidableEq, Repr

/-- The moves of the host, "exactly the moves of the first column" of R266. -/
inductive HostMove where
  /-- Assert reset: the straps are sampled when it is released (R260). -/
  | assertReset (straps : Cfg)
  /-- Present a request: drive `OP` and the operand ports. -/
  | present (r : Request)
  /-- Take the response: read `STATUS` and, when it is `OK`, the result ports. -/
  | take
  /-- Do nothing: the block stays idle. -/
  | idle
  deriving DecidableEq, Repr

/-- Why the machine stops with a fault. -/
inductive Fault where
  /-- `QUANT` (`execQuant`) on a result above `M = 2^bits - 1`: "A model that cannot discharge this bound must
  fault on a result above `M`, never wrap it" (spec/40_fixed_point_codec.md R105; notes/assumptions/15.md). SAFE: it is a stop, and
  Sys2Proof/Laws/Codec.lean proves that the binary64 numerics never reach it. -/
  | quantResultAboveRange
  deriving DecidableEq, Repr

/-- Why a step has no meaning. -/
inductive Refusal where
  /-- An instruction whose arm in `exec` has no meaning yet, by its mnemonic. No arm raises it. SAFE. -/
  | notModelled (mnemonic : String)
  /-- `acceptRequest`: the host presents a request while the response to the previous one has not been taken, "a
  host error whose effect this spec does not define" (spec/70_reset_and_hazards.md R268; notes/assumptions/11.md). SAFE: it
  is a stop. -/
  | overlappingRequest
  deriving DecidableEq, Repr

/-- The whole machine. -/
structure State where
  /-- `CFG`, the block's only control state (R26). -/
  cfg       : Cfg
  /-- The request ports as the host drives them (R27). -/
  inp       : Request
  /-- The response ports: the response that stands on them until the host takes it, or `none` when no response is
  pending, as after reset (R28, R30). -/
  resp      : Option Response
  /-- MODEL'S OWN: the host's moves still to come, next one first (R266; notes/assumptions/7.md). -/
  host      : List HostMove
  /-- MODEL'S OWN: the responses the host has taken, oldest first; no rule reads it (R21; notes/assumptions/7.md). -/
  delivered : List Response
  deriving DecidableEq, Repr

/-- The block right after reset with the given straps: `CFG` sampled, no request outstanding, no response pending
(spec/10_state.md R30, R31; spec/70_reset_and_hazards.md R260, R261). -/
def State.resetOf (straps : Cfg) : State where
  cfg       := straps.sample
  inp       := Request.undriven
  resp      := none
  host      := []
  delivered := []

/-- The reset of the instance whose straps `Config.instanceStraps` names. Any other instance's reset is
`State.resetOf` of its straps. -/
def State.reset : State := State.resetOf Config.instanceStraps

end Sys2Proof.Machine
end

