-- ==== Sys2Proof/Syntax.lean ====
section
/-! DEFINITION. The operation set of the block: one constructor per row of spec/opcode_table.json
(spec/30_encoding.md R61). A request carries no operand in its selector but the type tag (R60), so the
constructors have no arguments: the operands stand on the request ports, which are in `Machine.State`. -/

namespace Sys2Proof

/-- The 28 operations (R61). -/
inductive Instr where
  | quant
  | dequant
  | packU8
  | packS8
  | packU16
  | packS16
  | packU32
  | packS32
  | packF32
  | packBadtag
  | unpackU8
  | unpackS8
  | unpackU16
  | unpackS16
  | unpackU32
  | unpackS32
  | unpackF32
  | unpackBadtag
  | aidPack
  | aidUnpack
  | envEnc
  | envDec
  | frameEnc
  | frameDec
  | fltStatus
  | fltReport
  | tlmDec
  | rxDecode
  deriving DecidableEq, Repr

/-- The seven type tags "{u8,s8,u16,s16,u32,s32,f32}" (R63). -/
inductive TypeTag where
  | u8
  | s8
  | u16
  | s16
  | u32
  | s32
  | f32
  deriving DecidableEq, Repr

end Sys2Proof
end

