-- ==== Sys2Proof/WellFormed.lean ====
section
/-! DEFINITION. The static checks of the spec on what a request holds. Every constructor of `Instr` is an
operation by itself: the selector carries no operand that could be ill-formed, so the checks below are on the
selector byte and on the operand ports. -/

namespace Sys2Proof

/-- The 28 assigned selectors, in the order of the table (spec/30_encoding.md R61). -/
def assignedSelectors : List Byte :=
  [0x00#8, 0x01#8] ++
  [0x10#8, 0x11#8, 0x12#8, 0x13#8, 0x14#8, 0x15#8, 0x16#8, 0x17#8] ++
  [0x18#8, 0x19#8, 0x1A#8, 0x1B#8, 0x1C#8, 0x1D#8, 0x1E#8, 0x1F#8] ++
  [0x20#8, 0x21#8] ++
  [0x30#8, 0x31#8, 0x32#8, 0x33#8] ++
  [0x40#8, 0x41#8, 0x42#8, 0x43#8]

/-- The selector names an operation (R61); every other value is illegal (R62). -/
def selectorWf (op : Byte) : Bool := assignedSelectors.contains op

/-- `in.bits` is one of its legal values 8, 16 and 32 (spec/30_encoding.md R65). -/
def bitsWf (bits : BitVec 6) : Bool := bits == 8#6 || bits == 16#6 || bits == 32#6

/-- The LogicalFrame on the ports is well formed: `dlc = 8`, `command <= 31`, `device_id <= 127`
(spec/30_encoding.md R66). -/
def frameWf (r : Machine.Request) : Bool :=
  r.dlc == 8#8 && decide (r.command.toNat ≤ 31) && decide (r.deviceId.toNat ≤ 127)

/-- The bytes fit the receive buffer's port, which "holds up to 255" bytes (spec/10_state.md R27). -/
def bufferWf (bytes : List Byte) : Bool := decide (bytes.length ≤ 255)

/-- A request the selector decoder knows; that its buffer fits the port is in the type of the port. -/
def requestWf (r : Machine.Request) : Bool := selectorWf r.op

end Sys2Proof
end

