-- ==== Sys2Proof/Decode.lean ====
section
/-! DEFINITION. The selector decoder and the encoder. The decoder follows the FIELDS of the selector
(spec/30_encoding.md R60, R63, R64); the encoder follows the TABLE of R61. -/

namespace Sys2Proof

/-- Why the decoder rejects a selector. -/
inductive DecodeError where
  /-- One of the 228 unassigned values of `OP` (R62). -/
  | illegalSelector (op : Byte)
  deriving DecidableEq, Repr

/-- `OP[7:4]`, the family (R60). -/
def selectorFamily (op : Byte) : BitVec 4 := op.extractLsb' 4 4

/-- `OP[3:0]`, the operation within the family (R60). -/
def selectorOperation (op : Byte) : BitVec 4 := op.extractLsb' 0 4

/-- `OP[3]`, the direction within the scalar family: false = pack, true = unpack (R60). -/
def selectorUnpacks (op : Byte) : Bool := op.getLsbD 3

/-- `OP[2:0]`, the type-tag code within the scalar family (R60). -/
def selectorTagCode (op : Byte) : BitVec 3 := op.extractLsb' 0 3

/-- The type tag of a code: 0 to 6 in the source's order; code 7 names no tag (R63, R64). -/
def tagOfCode (c : BitVec 3) : Option TypeTag :=
  match c.toNat with
  | 0 => some .u8
  | 1 => some .s8
  | 2 => some .u16
  | 3 => some .s16
  | 4 => some .u32
  | 5 => some .s32
  | 6 => some .f32
  | _ => none

/-- `PACK.<tag>`, or `PACK.BADTAG` where the code names no tag (R64). -/
def packOfTag : Option TypeTag → Instr
  | some .u8  => .packU8
  | some .s8  => .packS8
  | some .u16 => .packU16
  | some .s16 => .packS16
  | some .u32 => .packU32
  | some .s32 => .packS32
  | some .f32 => .packF32
  | none      => .packBadtag

/-- `UNPACK.<tag>`, or `UNPACK.BADTAG` where the code names no tag (R64). -/
def unpackOfTag : Option TypeTag → Instr
  | some .u8  => .unpackU8
  | some .s8  => .unpackS8
  | some .u16 => .unpackU16
  | some .s16 => .unpackS16
  | some .u32 => .unpackU32
  | some .s32 => .unpackS32
  | some .f32 => .unpackF32
  | none      => .unpackBadtag

/-- The operation a selector names; total on every byte, and an unassigned byte is rejected by name (R60 to R64). -/
def decode (op : Byte) : Except DecodeError Instr :=
  match (selectorFamily op).toNat, (selectorOperation op).toNat with
  | 0, 0 => .ok .quant
  | 0, 1 => .ok .dequant
  | 1, _ =>
    if selectorUnpacks op then .ok (unpackOfTag (tagOfCode (selectorTagCode op)))
    else .ok (packOfTag (tagOfCode (selectorTagCode op)))
  | 2, 0 => .ok .aidPack
  | 2, 1 => .ok .aidUnpack
  | 3, 0 => .ok .envEnc
  | 3, 1 => .ok .envDec
  | 3, 2 => .ok .frameEnc
  | 3, 3 => .ok .frameDec
  | 4, 0 => .ok .fltStatus
  | 4, 1 => .ok .fltReport
  | 4, 2 => .ok .tlmDec
  | 4, 3 => .ok .rxDecode
  | _, _ => .error (.illegalSelector op)

/-- The selector of an operation, from the table (R61). -/
def encode : Instr → Byte
  | .quant        => 0x00#8
  | .dequant      => 0x01#8
  | .packU8       => 0x10#8
  | .packS8       => 0x11#8
  | .packU16      => 0x12#8
  | .packS16      => 0x13#8
  | .packU32      => 0x14#8
  | .packS32      => 0x15#8
  | .packF32      => 0x16#8
  | .packBadtag   => 0x17#8
  | .unpackU8     => 0x18#8
  | .unpackS8     => 0x19#8
  | .unpackU16    => 0x1A#8
  | .unpackS16    => 0x1B#8
  | .unpackU32    => 0x1C#8
  | .unpackS32    => 0x1D#8
  | .unpackF32    => 0x1E#8
  | .unpackBadtag => 0x1F#8
  | .aidPack      => 0x20#8
  | .aidUnpack    => 0x21#8
  | .envEnc       => 0x30#8
  | .envDec       => 0x31#8
  | .frameEnc     => 0x32#8
  | .frameDec     => 0x33#8
  | .fltStatus    => 0x40#8
  | .fltReport    => 0x41#8
  | .tlmDec       => 0x42#8
  | .rxDecode     => 0x43#8

/-- The selector byte of a table word: `OP` is 8 bits wide (R88), so the bits above bit 7 must be zero. -/
def selectorOfTableWord (nbits w : Nat) : Option Byte :=
  if w % 2 ^ nbits < 256 then some (BitVec.ofNat 8 (w % 2 ^ nbits)) else none

/-- The instruction the decoder reads from the `nbits` low bits of `w`. -/
def decodeTableWord (nbits w : Nat) : Option Instr :=
  match selectorOfTableWord nbits w with
  | some op =>
    match decode op with
    | .ok i => some i
    | .error _ => none
  | none => none

end Sys2Proof
end

