-- ==== Sys2Proof/Machine/Binary64.lean ====
section
/-! DEFINITION. The instance of `CFG.fp` this hardware takes: IEEE 754 binary64 with round to nearest, ties to even,
gradual underflow and no flags observed (spec/00_scope.md R11; spec/40_fixed_point_codec.md R101, R113;
spec/92_eei_decisions.md D5). The details of the standard that the spec names without spelling out are
notes/assumptions/12.md.

Every finite binary64 value is a whole number of UNITS of 2^-1074, the smallest subnormal. The operations compute
the exact result in units (an integer, or a quotient of two naturals) and round once at the end. -/

namespace Sys2Proof.Machine

/-- The sign, bit 63. -/
def fpSign (x : F64) : Bool := x.getLsbD 63

/-- Bits 62:0 as a number. On non-NaN patterns it orders the magnitudes. -/
def fpMag (x : F64) : Nat := x.toNat % 2 ^ 63

/-- The magnitude bits of infinity: exponent all ones, fraction zero. -/
def fpInfMag : Nat := 0x7FF0000000000000

/-- `fp.isNaN` (R11): exponent all ones, fraction not zero. -/
def fpIsNaN (x : F64) : Bool := decide (fpInfMag < fpMag x)

/-- The value is +infinity or -infinity. -/
def fpIsInf (x : F64) : Bool := decide (fpMag x = fpInfMag)

/-- `fp.isFinite` (R11): neither NaN nor infinite. -/
def fpIsFinite (x : F64) : Bool := decide (fpMag x < fpInfMag)

/-- The pattern with the given sign and magnitude bits. -/
def fpPack (neg : Bool) (mag : Nat) : F64 := BitVec.ofNat 64 ((if neg then 2 ^ 63 else 0) + mag)

/-- The magnitude in units of 2^-1074 of finite magnitude bits: fraction alone where the exponent field is 0
(zero and the subnormals), else 1.fraction scaled by the exponent. -/
def fpUnitsOfMag (m : Nat) : Nat :=
  if m < 2 ^ 52 then m else (2 ^ 52 + m % 2 ^ 52) * 2 ^ (m / 2 ^ 52 - 1)

/-- The magnitude of a finite value in units. -/
def fpUnits (x : F64) : Nat := fpUnitsOfMag (fpMag x)

/-- The signed value of a finite pattern in units: `real(v)` of R11 is this number times 2^-1074. -/
def fpSignedUnits (x : F64) : Int := if fpSign x then -(fpUnits x : Int) else (fpUnits x : Int)

/-- The natural number nearest to `n / d`, ties to even. -/
def roundTiesEven (n d : Nat) : Nat :=
  if 2 * (n % d) < d then n / d
  else if d < 2 * (n % d) then n / d + 1
  else n / d + n / d % 2

/-- How many low bits fall off when a whole number of units `q` is kept to 53 significant bits. -/
def fpExcess (q : Nat) : Nat := q.log2 - 52

/-- The magnitude bits of the binary64 value nearest to `n / d` units, ties to even. A significand that rounds up to
2^53 carries into the exponent field by the addition, and a result at or above 2^1024 is infinity. -/
def fpRound (n d : Nat) : Nat :=
  min fpInfMag (fpExcess (n / d) * 2 ^ 52 + roundTiesEven n (d * 2 ^ fpExcess (n / d)))

/-- The quiet NaN an operation gives on invalid operands: sign and payload are free (notes/assumptions/6.md). -/
def fpNaN (op : FpOp) (a b : F64) : F64 :=
  (BitVec.ofBool ((Config.nanSignAndPayload op a b).getLsbD 51)) ++ 0xFFF#12 ++
    (Config.nanSignAndPayload op a b).extractLsb' 0 51

/-- `-x`: the sign bit inverted. -/
def fpNeg (x : F64) : F64 := fpPack (!fpSign x) (fpMag x)

/-- The sum of two numbers, NaN only for infinities of opposite sign. An exact zero sum is +0 unless both operands
are negative (round to nearest). -/
def fpAddNumbers (op : FpOp) (a b : F64) : F64 :=
  if fpIsInf a then
    if fpIsInf b && (fpSign a != fpSign b) then fpNaN op a b else a
  else if fpIsInf b then b
  else
    let n := fpSignedUnits a + fpSignedUnits b
    if n = 0 then fpPack (fpSign a && fpSign b) 0
    else fpPack (decide (n < 0)) (fpRound n.natAbs 1)

/-- `fp.add` (R11). -/
def fpAdd (a b : F64) : F64 :=
  if fpIsNaN a || fpIsNaN b then fpNaN .add a b else fpAddNumbers .add a b

/-- `fp.sub` (R11): `a + (-b)`. -/
def fpSub (a b : F64) : F64 :=
  if fpIsNaN a || fpIsNaN b then fpNaN .sub a b else fpAddNumbers .sub a (fpNeg b)

/-- `fp.mul` (R11): infinity times zero is NaN; the exact product of two finite values is a whole number of
2^-2148. -/
def fpMul (a b : F64) : F64 :=
  if fpIsNaN a || fpIsNaN b then fpNaN .mul a b
  else if fpIsInf a || fpIsInf b then
    if fpMag a = 0 ∨ fpMag b = 0 then fpNaN .mul a b else fpPack (fpSign a != fpSign b) fpInfMag
  else fpPack (fpSign a != fpSign b) (fpRound (fpUnits a * fpUnits b) (2 ^ 1074))

/-- `fp.div` (R11): 0/0 and infinity/infinity are NaN, a finite non-zero value over zero is infinite, a finite value
over infinity is zero. -/
def fpDiv (a b : F64) : F64 :=
  if fpIsNaN a || fpIsNaN b then fpNaN .div a b
  else if fpIsInf a then
    if fpIsInf b then fpNaN .div a b else fpPack (fpSign a != fpSign b) fpInfMag
  else if fpIsInf b then fpPack (fpSign a != fpSign b) 0
  else if fpMag b = 0 then
    if fpMag a = 0 then fpNaN .div a b else fpPack (fpSign a != fpSign b) fpInfMag
  else fpPack (fpSign a != fpSign b) (fpRound (fpUnits a * 2 ^ 1074) (fpUnits b))

/-- The signed magnitude, which orders the values that are not NaN; both zeros give 0. -/
def fpKey (x : F64) : Int := if fpSign x then -(fpMag x : Int) else (fpMag x : Int)

/-- `fp.lt` (R11): ordered, false when either operand is NaN. -/
def fpLt (a b : F64) : Bool := !fpIsNaN a && !fpIsNaN b && decide (fpKey a < fpKey b)

/-- `fp.gt` (R11): ordered, false when either operand is NaN. -/
def fpGt (a b : F64) : Bool := fpLt b a

/-- `fp.ofNat` (R11): the binary64 value of a natural number, exact below 2^53. -/
def fpOfNat (n : Nat) : F64 := fpPack false (fpRound (n * 2 ^ 1074) 1)

/-- `fp.floorToNat` (R11): the largest natural number not above a finite value that is not below zero; 0 for -0.0.
The sign is not examined: the codec applies it to no value below zero (R105). -/
def fpFloorToNat (t : F64) : Nat := fpUnits t / 2 ^ 1074

/-- The numerics record of this hardware (R11, D5). -/
def binary64 : Numerics where
  add        := fpAdd
  sub        := fpSub
  mul        := fpMul
  div        := fpDiv
  lt         := fpLt
  gt         := fpGt
  isNaN      := fpIsNaN
  isFinite   := fpIsFinite
  ofNat      := fpOfNat
  floorToNat := fpFloorToNat

end Sys2Proof.Machine
end

