-- ==== Sys2Proof/Machine/Ops.lean ====
section
/-! DEFINITION. The shared operations: reading and building byte buffers, delivering a response, ending an operation
with a status code (the block's only "exception", spec/60_exceptions.md R235), the host's taking of the response,
and the map from the ports that hold a value to their names. -/

namespace Sys2Proof.Machine

/-! ## Byte buffers (spec/00_scope.md R10, spec/20_memory.md R40 to R50) -/

/-- Four bytes as a 32-bit word, offset 0 the most significant: `be32` (R10), the order of the header word (R44). -/
def be32 (b : Bytes4) : Word32 := b.b0 ++ b.b1 ++ b.b2 ++ b.b3

/-- The big-endian bytes of a 32-bit word (R44). -/
def bytesOfBe32 (w : Word32) : Bytes4 :=
  ⟨w.extractLsb' 24 8, w.extractLsb' 16 8, w.extractLsb' 8 8, w.extractLsb' 0 8⟩

/-- Two bytes as a 16-bit number, the first the more significant: `be16` (R10, R43). -/
def be16 (hi lo : Byte) : BitVec 16 := hi ++ lo

/-- Four bytes as a 32-bit word, offset 0 the least significant: `le_4` (R10, R42). -/
def le32 (b : Bytes4) : Word32 := b.b3 ++ b.b2 ++ b.b1 ++ b.b0

/-- The little-endian bytes of a 32-bit word (R42). -/
def bytesOfLe32 (w : Word32) : Bytes4 :=
  ⟨w.extractLsb' 0 8, w.extractLsb' 8 8, w.extractLsb' 16 8, w.extractLsb' 24 8⟩

/-- `BufRead(B, off, 4)` (R10): defined only when `off + 4 <= len(B)` (R50). -/
def bufRead4 (b : List Byte) (off : Nat) : Option Bytes4 :=
  match b.drop off with
  | b0 :: b1 :: b2 :: b3 :: _ => some ⟨b0, b1, b2, b3⟩
  | _ => none

/-- `BufRead(B, off, 8)` (R10): defined only when `off + 8 <= len(B)` (R50). -/
def bufRead8 (b : List Byte) (off : Nat) : Option Bytes8 :=
  match b.drop off with
  | b0 :: b1 :: b2 :: b3 :: b4 :: b5 :: b6 :: b7 :: _ => some ⟨b0, b1, b2, b3, b4, b5, b6, b7⟩
  | _ => none

/-! ## Responses -/

/-- The 4-bit coding of `STATUS` (spec/60_exceptions.md R231). -/
def Status.code : Status → BitVec 4
  | .ok              => 0#4
  | .malformedFrame  => 1#4
  | .unknownTypeTag  => 2#4
  | .invalidRange    => 3#4
  | .invalidOperand  => 4#4
  | .valueOutOfRange => 5#4
  | .illFormedFrame  => 6#4
  | .illegalOp       => 7#4
  | .notDecodable    => 8#4

/-- The response of an operation that completed: `STATUS = OK` and the ports its rule names (R28). -/
def okResponse (out : OutPorts) : Response := ⟨.ok, out⟩

/-- The response of an operation that failed: the status alone, no result port defined (spec/60_exceptions.md
R236). -/
def failResponse (st : Status) : Response := ⟨st, OutPorts.undefined⟩

/-- Put a response on the response ports. Nothing else of the state changes (R21, R235). -/
def State.withResponse (s : State) (r : Response) : State := { s with resp := some r }

/-- `STATUS <- OK` with the given result ports. -/
def deliver (out : OutPorts) (s : State) : Host.Outcome State Fault Refusal :=
  .next (s.withResponse (okResponse out))

/-- `fail <Status>` (spec/00_scope.md R10), the one shared way an operation ends in place of its result: it stops at
the failing check, the response carries the code, the response is delivered, and "That is all": no cause register,
no saved program counter, no vector, no mode change, and so no return operation (spec/60_exceptions.md R235). -/
def fail (st : Status) (s : State) : Host.Outcome State Fault Refusal :=
  .next (s.withResponse (failResponse st))

/-- Deliver what an operation computed: its result ports, or the status it failed with. -/
def respond (r : Except Status OutPorts) (s : State) : Host.Outcome State Fault Refusal :=
  match r with
  | .ok out => deliver out s
  | .error st => fail st s

/-- The block after the response is taken: no port keeps its value (spec/10_state.md R22), no request is outstanding,
and the host holds the response. With no response pending the move finds nothing and changes nothing
(notes/assumptions/8.md). -/
def takeResponse (s : State) : State :=
  match s.resp with
  | some r => { s with inp := Request.undriven, resp := none, delivered := s.delivered ++ [r] }
  | none => s

/-- Assert reset and release it with the given straps: the block is as `State.resetOf` says and an operation in
progress is abandoned without a response (spec/70_reset_and_hazards.md R260). The host keeps its own plan and what it
has taken. -/
def resetBlock (straps : Cfg) (s : State) : State :=
  { State.resetOf straps with host := s.host, delivered := s.delivered }

/-! ## Results on the ports (R28) -/

/-- The ports that hold a FaultReport of a status word. -/
def OutPorts.withStatusFaults (o : OutPorts) (f : StatusFaults) : OutPorts :=
  { o with faultSet := some f.faultSet, fault := some f.fault, modeRaw := some f.modeRaw, mode := some f.mode }

/-- The ports that hold a FaultReport of a fault-report payload. -/
def OutPorts.withReportFaults (o : OutPorts) (f : ReportFaults) : OutPorts :=
  { o with repUncal := some f.uncal, repOverloadMask := some f.overloadMask, repOverload := some f.overload,
           repPhaseAOc := some f.phaseAOc, repOvertempWarn := some f.overtempWarn }

/-- The ports that hold decoded telemetry. -/
def OutPorts.withTelemetry (o : OutPorts) (t : Telemetry) : OutPorts :=
  { o with posU := some t.posU, velU := some t.velU, trqU := some t.trqU, tempRaw := some t.tempRaw,
           pos := some t.pos, vel := some t.vel, trq := some t.trq, tempC := some t.tempC }

/-- Whether a result port holds a defined value. -/
def OutPorts.isDefined (o : OutPorts) : PortName → Bool
  | .u               => o.u.isSome
  | .y               => o.y.isSome
  | .b4              => o.b4.isSome
  | .val             => o.val.isSome
  | .h               => o.h.isSome
  | .dlc             => o.dlc.isSome
  | .command         => o.command.isSome
  | .senderTag       => o.senderTag.isSome
  | .deviceId        => o.deviceId.isSome
  | .payload         => o.payload.isSome
  | .env             => o.env.isSome
  | .envLen          => o.envLen.isSome
  | .fault           => o.fault.isSome
  | .faultSet        => o.faultSet.isSome
  | .modeRaw         => o.modeRaw.isSome
  | .mode            => o.mode.isSome
  | .repUncal        => o.repUncal.isSome
  | .repPhaseAOc     => o.repPhaseAOc.isSome
  | .repOvertempWarn => o.repOvertempWarn.isSome
  | .repOverloadMask => o.repOverloadMask.isSome
  | .repOverload     => o.repOverload.isSome
  | .posU            => o.posU.isSome
  | .velU            => o.velU.isSome
  | .trqU            => o.trqU.isSome
  | .tempRaw         => o.tempRaw.isSome
  | .pos             => o.pos.isSome
  | .vel             => o.vel.isSome
  | .trq             => o.trq.isSome
  | .tempC           => o.tempC.isSome
  | .replyId         => o.replyId.isSome
  | .kind            => o.kind.isSome

/-- The ports of a status-word FaultReport: the results of `FLT.STATUS` (R203). -/
def statusFaultPorts : List PortName := [.faultSet, .fault, .modeRaw, .mode]

/-- The ports of a fault-report FaultReport: the results of `FLT.REPORT` (R207). -/
def reportFaultPorts : List PortName := [.repUncal, .repOverloadMask, .repOverload, .repPhaseAOc, .repOvertempWarn]

/-- The ports of decoded telemetry: the results of `TLM.DEC` (R211). -/
def telemetryPorts : List PortName := [.posU, .velU, .trqU, .tempRaw, .pos, .vel, .trq, .tempC]

/-- The result ports an operation's rule names, which hold values when `STATUS` is `OK`, "and the rest are undefined"
(R28; the "results" of spec/opcode_table.json). Those of `RX.DECODE` depend on `in.command` (R215). -/
def resultPorts (i : Instr) (command : Byte) : List PortName :=
  match i with
  | .quant => [.u]
  | .dequant => [.y]
  | .packU8 | .packS8 | .packU16 | .packS16 | .packU32 | .packS32 | .packF32 => [.b4]
  | .unpackU8 | .unpackS8 | .unpackU16 | .unpackS16 | .unpackU32 | .unpackS32 | .unpackF32 => [.val]
  | .packBadtag | .unpackBadtag => []
  | .aidPack => [.h]
  | .aidUnpack => [.command, .senderTag, .deviceId]
  | .envEnc | .frameEnc => [.env, .envLen]
  | .envDec => [.dlc, .h, .payload]
  | .frameDec => [.dlc, .command, .senderTag, .deviceId, .payload]
  | .fltStatus => statusFaultPorts
  | .fltReport => reportFaultPorts
  | .tlmDec => telemetryPorts
  | .rxDecode =>
    if command = 2#8 then [.kind, .replyId] ++ telemetryPorts ++ statusFaultPorts
    else if command = 21#8 then [.kind, .replyId] ++ reportFaultPorts
    else []

/-- The statuses an operation can return: its row of spec/60_exceptions.md R232. -/
def statusesOf : Instr → List Status
  | .quant => [.ok, .invalidRange, .invalidOperand]
  | .dequant => [.ok, .invalidRange]
  | .packU8 | .packS8 | .packU16 | .packS16 => [.ok, .valueOutOfRange]
  | .packU32 | .packS32 | .packF32 => [.ok]
  | .packBadtag | .unpackBadtag => [.unknownTypeTag]
  | .unpackU8 | .unpackS8 | .unpackU16 | .unpackS16 | .unpackU32 | .unpackS32 | .unpackF32 => [.ok]
  | .aidPack => [.ok, .illFormedFrame]
  | .aidUnpack => [.ok]
  | .envEnc | .frameEnc => [.ok, .illFormedFrame]
  | .envDec | .frameDec => [.ok, .malformedFrame]
  | .fltStatus | .fltReport => [.ok]
  | .tlmDec => [.ok, .invalidRange]
  | .rxDecode => [.ok, .invalidRange, .notDecodable]

end Sys2Proof.Machine
end

