-- ==== Sys2Proof/Machine/Operands.lean ====
section
/-! DEFINITION. The checks and extractions the operations make on their operands: ranges, scalar widths, frame fields,
the header word, the telemetry fields, the reply route, and which request ports an operation reads. -/

namespace Sys2Proof.Machine

/-! ## Codec operands -/

/-- `M = 2^bits - 1` (spec/40_fixed_point_codec.md R103), a natural number that never wraps (R112). -/
def maxCode (bits : BitVec 6) : Nat := 2 ^ bits.toNat - 1

/-- `in.bits` is 8, 16 or 32 (spec/30_encoding.md R65). -/
def legalBits (bits : BitVec 6) : Bool := bits == 8#6 || bits == 16#6 || bits == 32#6

/-- A PhysicalRange is valid (spec/00_scope.md R12): legal width, finite bounds, `min < max`, finite span and finite
scaled span. -/
def rangeValid (fp : Numerics) (r : PhysicalRange) : Bool :=
  legalBits r.bits && fp.isFinite r.min && fp.isFinite r.max && fp.lt r.min r.max &&
    fp.isFinite (fp.sub r.max r.min) && fp.isFinite (fp.mul (fp.sub r.max r.min) (fp.ofNat (maxCode r.bits)))

/-- The range operand on the ports `in.min`, `in.max`, `in.bits` (R27). -/
def Request.range (r : Request) : PhysicalRange := ⟨r.min, r.max, r.bits⟩

/-- A configuration is well formed when every `CFG.RANGE[q]` is valid (spec/00_scope.md R7). -/
def cfgWellFormed (fp : Numerics) (c : Cfg) : Bool :=
  rangeValid fp (c.range .pos) && rangeValid fp (c.range .vel) && rangeValid fp (c.range .trq) &&
    rangeValid fp (c.range .kp) && rangeValid fp (c.range .kd)

/-- The clamp of a physical value to `[min, max]` (R103). -/
def clampPhysical (fp : Numerics) (r : PhysicalRange) (x : F64) : F64 :=
  if fp.gt x r.max then r.max else if fp.lt x r.min then r.min else x

/-- The clamp of a code to `[0, M]`, an unsigned comparison (R106, R112). -/
def clampCode (bits : BitVec 6) (u : Word32) : Nat := if u.toNat > maxCode bits then maxCode bits else u.toNat

/-! ## Scalar operands -/

/-- The width `w` of a tag in bytes (spec/30_encoding.md R63). -/
def tagWidth : TypeTag → Nat
  | .u8 | .s8 => 1
  | .u16 | .s16 => 2
  | .u32 | .s32 | .f32 => 4

/-- `in.val[31:8w] = 0`, vacuous when `w = 4` (spec/41_scalar_pack.md R121). -/
def fitsUnsigned (w : Nat) (val : Word32) : Bool := val >>> (8 * w) == 0#32

/-- `in.val = sext_32(in.val[8w-1:0])`, vacuous when `w = 4` (R121). -/
def fitsSigned (w : Nat) (val : Word32) : Bool := (val.setWidth (8 * w)).signExtend 32 == val

/-- The range check of a tag: unsigned, signed, or none for `f32` (R121). -/
def fitsTag (t : TypeTag) (val : Word32) : Bool :=
  match t with
  | .u8 | .u16 | .u32 => fitsUnsigned (tagWidth t) val
  | .s8 | .s16 | .s32 => fitsSigned (tagWidth t) val
  | .f32 => true

/-- The first `w` little-endian bytes of the value, then zero padding: the bytes of the value with every bit from
`8w` up cleared (R121). -/
def paddedLe (w : Nat) (val : Word32) : Bytes4 := bytesOfLe32 ((val.setWidth (8 * w)).setWidth 32)

/-- `le_w(in.b4, 0)`, the little-endian number in the first `w` bytes (R131). -/
def rawLe (w : Nat) (b : Bytes4) : BitVec (8 * w) := (le32 b).setWidth (8 * w)

/-- The extension of the raw number to the 32-bit result port: zero for unsigned tags, sign for signed tags, the
pattern itself for `f32` (R131). -/
def extendTag (t : TypeTag) (b : Bytes4) : Word32 :=
  match t with
  | .u8 | .u16 | .u32 | .f32 => (rawLe (tagWidth t) b).setWidth 32
  | .s8 | .s16 | .s32 => (rawLe (tagWidth t) b).signExtend 32

/-! ## Frame operands -/

/-- The encode-side check of the two arbitration-ID fields (spec/42_arbitration_id.md R151). -/
def aidAccepts (command deviceId : Byte) : Bool := decide (command.toNat ≤ 31) && decide (deviceId.toNat ≤ 127)

/-- `DLC_LIT` = 8, "constant, not configurable" (spec/00_scope.md R6). -/
def dlcLit : Byte := 0x08#8

/-- The encode-side check of the DLC byte (spec/43_frame_envelope.md R171). -/
def dlcAccepts (dlc : Byte) : Bool := dlc == dlcLit

/-- `ID29 = command[4:0] ‖ sender_tag[15:0] ‖ device_id[7:0]` (spec/30_encoding.md R69). -/
def id29 (command : BitVec 5) (senderTag : BitVec 16) (deviceId : Byte) : BitVec 29 :=
  command ++ senderTag ++ deviceId

/-- `ID29[28:24]`. -/
def id29Command (i : BitVec 29) : BitVec 5 := i.extractLsb' 24 5

/-- `ID29[23:8]`. -/
def id29SenderTag (i : BitVec 29) : BitVec 16 := i.extractLsb' 8 16

/-- `ID29[7:0]`. -/
def id29DeviceId (i : BitVec 29) : Byte := i.extractLsb' 0 8

/-- The header word of an arbitration ID: unshifted in variant A (spec/30_encoding.md R71), shifted left by 3 with the
marker at bit 2 in variant B (R72). -/
def headerWord (v : Variant) (i : BitVec 29) : Word32 :=
  match v with
  | .a => i.setWidth 32
  | .b => (i.setWidth 32 <<< 3) ||| 0x00000004#32

/-- The arbitration ID in a header word, every other bit ignored (spec/42_arbitration_id.md R155, R156). -/
def headerId29 (v : Variant) (w : Word32) : BitVec 29 :=
  match v with
  | .a => w.extractLsb' 0 29
  | .b => w.extractLsb' 3 29

/-- `in.len` (R27), 8 bits: the number of valid bytes in `in.buf`, which the port bounds by 255
(notes/assumptions/9.md). -/
def Request.len (r : Request) : Byte := BitVec.ofNat 8 r.buf.bytes.length

/-! ## Classifier operands -/

/-- The status word and the reply id of a frame, by the configured route (spec/44_fault_classifier.md R200). -/
def replyRoute (route : ReplyRoute) (senderTag : BitVec 16) (deviceId : Byte) : BitVec 16 × Byte :=
  match route with
  | .literal  => (senderTag, deviceId)
  | .firmware => ((senderTag.extractLsb' 8 8).setWidth 16, senderTag.extractLsb' 0 8)

/-- The position field, payload offsets 0 and 1 (spec/44_fault_classifier.md R210). -/
def payloadPos (p : Bytes8) : BitVec 16 := be16 p.b0 p.b1

/-- The velocity field, payload offsets 2 and 3 (R210). -/
def payloadVel (p : Bytes8) : BitVec 16 := be16 p.b2 p.b3

/-- The torque field, payload offsets 4 and 5 (R210). -/
def payloadTrq (p : Bytes8) : BitVec 16 := be16 p.b4 p.b5

/-- The temperature field, payload offsets 6 and 7 (R210). -/
def payloadTemp (p : Bytes8) : BitVec 16 := be16 p.b6 p.b7

/-! ## Which request ports an operation reads (spec/10_state.md R27) -/

/-- The request with every operand port the operation does not read left undriven: "ports an operation does not read
are ignored by it" (R27). `RX.DECODE` lists `in.dlc` among its operands and ignores it (R216). -/
def readView (i : Instr) (r : Request) : Request :=
  let none := { Request.undriven with op := r.op }
  match i with
  | .quant => { none with x := r.x, min := r.min, max := r.max, bits := r.bits }
  | .dequant => { none with u := r.u, min := r.min, max := r.max, bits := r.bits }
  | .packU8 | .packS8 | .packU16 | .packS16 | .packU32 | .packS32 | .packF32 => { none with val := r.val }
  | .packBadtag | .unpackBadtag => none
  | .unpackU8 | .unpackS8 | .unpackU16 | .unpackS16 | .unpackU32 | .unpackS32 | .unpackF32 => { none with b4 := r.b4 }
  | .aidPack => { none with command := r.command, senderTag := r.senderTag, deviceId := r.deviceId }
  | .aidUnpack => { none with h := r.h }
  | .envEnc => { none with dlc := r.dlc, h := r.h, payload := r.payload }
  | .envDec | .frameDec => { none with buf := r.buf }
  | .frameEnc =>
    { none with dlc := r.dlc, command := r.command, senderTag := r.senderTag, deviceId := r.deviceId,
                payload := r.payload }
  | .fltStatus => { none with statusWord := r.statusWord }
  | .fltReport | .tlmDec => { none with payload := r.payload }
  | .rxDecode =>
    { none with command := r.command, senderTag := r.senderTag, deviceId := r.deviceId, payload := r.payload }

/-- The configuration with every field the operation does not read set to the instance's (the "read by" column of
spec/10_state.md R26): `AID.*` and the frame operations read the variant, the two encoders the fixed bytes of the
variant as well, `TLM.DEC` three ranges, `RX.DECODE` those and the reply route, and no other operation reads any. -/
def cfgView (i : Instr) (c : Cfg) : Cfg :=
  let none := Config.instanceStraps
  match i with
  | .aidPack | .aidUnpack | .envDec | .frameDec => { none with variant := c.variant }
  | .envEnc | .frameEnc =>
    match c.variant with
    | .a => { none with variant := .a, aSof := c.aSof, aLen := c.aLen, aRsv := c.aRsv }
    | .b => { none with variant := .b, bSof0 := c.bSof0, bSof1 := c.bSof1, bEof0 := c.bEof0, bEof1 := c.bEof1 }
  | .tlmDec => { none with posRange := c.posRange, velRange := c.velRange, trqRange := c.trqRange }
  | .rxDecode =>
    { none with posRange := c.posRange, velRange := c.velRange, trqRange := c.trqRange, replyRoute := c.replyRoute }
  | .quant | .dequant | .packU8 | .packS8 | .packU16 | .packS16 | .packU32 | .packS32 | .packF32 | .packBadtag
  | .unpackU8 | .unpackS8 | .unpackU16 | .unpackS16 | .unpackU32 | .unpackS32 | .unpackF32 | .unpackBadtag
  | .fltStatus | .fltReport => none

end Sys2Proof.Machine
end

