-- ==== Sys2Proof/Machine/ArbitrationId.lean ====
section
/-! DEFINITION. The arbitration-ID packer and unpacker: `AID.PACK` and `AID.UNPACK` (spec/42_arbitration_id.md). -/

namespace Sys2Proof.Machine

/-- `AID.PACK` up to the result port (R152): the encode-side check (R151), then the big-endian bytes of the header
word. -/
def aidPackHeader (v : Variant) (command : Byte) (senderTag : BitVec 16) (deviceId : Byte) : Except Status Bytes4 :=
  if aidAccepts command deviceId then
    .ok (bytesOfBe32 (headerWord v (id29 (command.extractLsb' 0 5) senderTag deviceId)))
  else .error .illFormedFrame

/-- The arbitration ID in four header bytes (R155). -/
def aidOfHeader (v : Variant) (h : Bytes4) : BitVec 29 := headerId29 v (be32 h)

/-- `AID.PACK` (R152). -/
def execAidPack (s : State) : Host.Outcome State Fault Refusal :=
  respond ((aidPackHeader s.cfg.variant s.inp.command s.inp.senderTag s.inp.deviceId).map fun h => { h := some h }) s

/-- `AID.UNPACK` (R155): total on every four bytes. -/
def execAidUnpack (s : State) : Host.Outcome State Fault Refusal :=
  let i := aidOfHeader s.cfg.variant s.inp.h
  deliver { command := some (id29Command i), senderTag := some (id29SenderTag i), deviceId := some (id29DeviceId i) } s

end Sys2Proof.Machine
end

