-- ==== Sys2Proof/Machine/Codec.lean ====
section
/-! DEFINITION. The fixed-point scalar codec: `QUANT` and `DEQUANT` (spec/40_fixed_point_codec.md). The law is written
over the numerics record `CFG.fp` (R101); the two meanings use the instance this hardware takes, `binary64`. -/

namespace Sys2Proof.Machine

/-- The scaled value `t` of `QUANT`: clamp, subtract, multiply, divide, one rounding each, in the written order
(R103). -/
def quantScaled (fp : Numerics) (r : PhysicalRange) (x : F64) : F64 :=
  fp.div (fp.mul (fp.sub (clampPhysical fp r x) r.min) (fp.ofNat (maxCode r.bits))) (fp.sub r.max r.min)

/-- `QUANT` up to the result port: the range check, then the NaN check (R102), then the floor of the scaled value
(R103). -/
def quantize (fp : Numerics) (r : PhysicalRange) (x : F64) : Except Status Nat :=
  if !rangeValid fp r then .error .invalidRange
  else if fp.isNaN x then .error .invalidOperand
  else .ok (fp.floorToNat (quantScaled fp r x))

/-- The value `DEQUANT` gives for a code in a valid range (R106). -/
def dequantValue (fp : Numerics) (r : PhysicalRange) (u : Word32) : F64 :=
  fp.add r.min (fp.div (fp.mul (fp.ofNat (clampCode r.bits u)) (fp.sub r.max r.min)) (fp.ofNat (maxCode r.bits)))

/-- `DEQUANT` up to the result port: the range check, then clamp, multiply, divide, add (R106). -/
def dequantize (fp : Numerics) (r : PhysicalRange) (u : Word32) : Except Status F64 :=
  if !rangeValid fp r then .error .invalidRange else .ok (dequantValue fp r u)

/-- `QUANT` (R103). A result above `M` faults, never wraps (R105); with `binary64` there is none. -/
def execQuant (s : State) : Host.Outcome State Fault Refusal :=
  match quantize binary64 s.inp.range s.inp.x with
  | .error st => fail st s
  | .ok n =>
    if n ≤ maxCode s.inp.bits then deliver { u := some (BitVec.ofNat 32 n) } s else .fault .quantResultAboveRange

/-- `DEQUANT` (R106). -/
def execDequant (s : State) : Host.Outcome State Fault Refusal :=
  respond ((dequantize binary64 s.inp.range s.inp.u).map fun y => { y := some y }) s

end Sys2Proof.Machine
end

