-- ==== Sys2Proof/Machine/Flags.lean ====
section
/-! DEFINITION. The block has no flags and no condition codes (spec/10_state.md R24). What it computes bit by bit are
the fault and mode results of the two fault layouts, which are kept apart and share no table and no port
(spec/30_encoding.md R83). -/

namespace Sys2Proof.Machine

/-! ## The status word (spec/30_encoding.md R79, spec/44_fault_classifier.md R202, R203) -/

/-- `status_word[5:0]`: one category per bit, "the set is the mask itself, named" (R202). -/
def statusFaultSet (w : BitVec 16) : BitVec 6 := w.extractLsb' 0 6

/-- `out.fault`: any of the six fault bits set (R203). -/
def statusFault (w : BitVec 16) : Bool := statusFaultSet w != 0#6

/-- `status_word[7:6]` (R203). -/
def statusModeRaw (w : BitVec 16) : BitVec 2 := w.extractLsb' 6 2

/-- The decoded mode: 0 Reset, 1 Calibrate, 2 Run, 3 the reserved value (R81, R203). -/
def modeOfRaw (m : BitVec 2) : ModeStatus :=
  match m.toNat with
  | 0 => .reset
  | 1 => .calibrate
  | 2 => .run
  | _ => .reserved3

/-- The FaultReport of a status word; bits 15:8 are ignored (R203, R204). -/
def classifyStatus (w : BitVec 16) : StatusFaults where
  faultSet := statusFaultSet w
  fault    := statusFault w
  modeRaw  := statusModeRaw w
  mode     := modeOfRaw (statusModeRaw w)

/-! ## The fault-report payload (spec/30_encoding.md R82, spec/44_fault_classifier.md R206, R207) -/

/-- `payload[0][7]`: uncalibrated. -/
def reportUncal (p : Bytes8) : Bool := p.b0.getLsbD 7

/-- `payload[1]`: the overload mask, whole. -/
def reportOverloadMask (p : Bytes8) : Byte := p.b1

/-- `payload[1] != 0`: some overload bit set. -/
def reportOverload (p : Bytes8) : Bool := p.b1 != 0#8

/-- `payload[2][0]`: phase-A overcurrent. -/
def reportPhaseAOc (p : Bytes8) : Bool := p.b2.getLsbD 0

/-- `payload[4][0]`: over-temperature warning. -/
def reportOvertempWarn (p : Bytes8) : Bool := p.b4.getLsbD 0

/-- The FaultReport of a fault-report payload; every unassigned bit is ignored (R207, R208). -/
def classifyReport (p : Bytes8) : ReportFaults where
  uncal        := reportUncal p
  overloadMask := reportOverloadMask p
  overload     := reportOverload p
  phaseAOc     := reportPhaseAOc p
  overtempWarn := reportOvertempWarn p

end Sys2Proof.Machine
end

