-- ==== Sys2Proof/Machine/Classifier.lean ====
section
/-! DEFINITION. The fault-bitmask classifier and the reply decode: `FLT.STATUS`, `FLT.REPORT`, `TLM.DEC` and
`RX.DECODE` (spec/44_fault_classifier.md). -/

namespace Sys2Proof.Machine

/-- `TENTH`, "the binary64 nearest to 0.1" (R211). -/
def tenth : F64 := 0x3FB999999999999A#64

/-- `TLM.DEC` up to the result ports (R211): four big-endian fields, three of them dequantized in the configured
ranges, the temperature in tenths of a degree. -/
def decodeTelemetry (fp : Numerics) (c : Cfg) (p : Bytes8) : Except Status Telemetry :=
  match dequantize fp (c.range .pos) ((payloadPos p).setWidth 32),
        dequantize fp (c.range .vel) ((payloadVel p).setWidth 32),
        dequantize fp (c.range .trq) ((payloadTrq p).setWidth 32) with
  | .ok pos, .ok vel, .ok trq =>
    .ok { posU := payloadPos p, velU := payloadVel p, trqU := payloadTrq p, tempRaw := payloadTemp p,
          pos := pos, vel := vel, trq := trq, tempC := fp.mul (fp.ofNat (payloadTemp p).toNat) tenth }
  | .error st, _, _ => .error st
  | _, .error st, _ => .error st
  | _, _, .error st => .error st

/-- The result ports of a motion-status reply (R215). -/
def motionPorts (replyId : Byte) (t : Telemetry) (f : StatusFaults) : OutPorts :=
  (OutPorts.withTelemetry { kind := some .motionStatus, replyId := some replyId } t).withStatusFaults f

/-- The result ports of a fault-report frame (R215): no telemetry and no status word. -/
def reportPorts (replyId : Byte) (f : ReportFaults) : OutPorts :=
  OutPorts.withReportFaults { kind := some .faultReport, replyId := some replyId } f

/-- The `command` of a motion-status reply (spec/30_encoding.md R84). -/
def commandMotionStatus : Byte := 2#8

/-- The `command` of a fault-report frame (spec/30_encoding.md R84). -/
def commandFaultReport : Byte := 21#8

/-- `RX.DECODE` up to the result ports (R215): `command` selects the decode path, any other command than 2 and 21 has
none. `in.dlc` is not examined (R216). -/
def decodeReply (fp : Numerics) (c : Cfg) (command : Byte) (senderTag : BitVec 16) (deviceId : Byte) (p : Bytes8) :
    Except Status OutPorts :=
  let word := (replyRoute c.replyRoute senderTag deviceId).1
  let replyId := (replyRoute c.replyRoute senderTag deviceId).2
  if command = commandMotionStatus then
    (decodeTelemetry fp c p).map fun t => motionPorts replyId t (classifyStatus word)
  else if command = commandFaultReport then .ok (reportPorts replyId (classifyReport p))
  else .error .notDecodable

/-- `FLT.STATUS` (R203): always `OK`, a fault bit is data and no error. -/
def execFltStatus (s : State) : Host.Outcome State Fault Refusal :=
  deliver (OutPorts.undefined.withStatusFaults (classifyStatus s.inp.statusWord)) s

/-- `FLT.REPORT` (R207): always `OK`. -/
def execFltReport (s : State) : Host.Outcome State Fault Refusal :=
  deliver (OutPorts.undefined.withReportFaults (classifyReport s.inp.payload)) s

/-- `TLM.DEC` (R211). -/
def execTlmDec (s : State) : Host.Outcome State Fault Refusal :=
  respond ((decodeTelemetry binary64 s.cfg s.inp.payload).map OutPorts.undefined.withTelemetry) s

/-- `RX.DECODE` (R215). -/
def execRxDecode (s : State) : Host.Outcome State Fault Refusal :=
  respond (decodeReply binary64 s.cfg s.inp.command s.inp.senderTag s.inp.deviceId s.inp.payload) s

end Sys2Proof.Machine
end

