-- ==== Sys2Proof/Machine/Envelope.lean ====
section
/-! DEFINITION. The frame serializer and deserializer with its two envelope variants: `ENV.ENC`, `ENV.DEC`,
`FRAME.ENC` and `FRAME.DEC` (spec/43_frame_envelope.md; layouts spec/30_encoding.md R74 to R77). -/

namespace Sys2Proof.Machine

/-- The envelope bytes around a header and a payload: 16 in variant A (spec/30_encoding.md R74), 17 in variant B
(R76). -/
def envelopeBytes (c : Cfg) (h : Bytes4) (p : Bytes8) : List Byte :=
  match c.variant with
  | .a => [c.aSof, c.aLen, c.aRsv, dlcLit] ++ h.toList ++ p.toList
  | .b => [c.bSof0, c.bSof1] ++ h.toList ++ [dlcLit] ++ p.toList ++ [c.bEof0, c.bEof1]

/-- The length of the variant's envelope: 16 or 17. -/
def envelopeLength : Variant → Nat
  | .a => 16
  | .b => 17

/-- `ENV.ENC` up to the result ports (R172): refuse a `dlc` other than 8 (R171), else copy. -/
def envEncode (c : Cfg) (dlc : Byte) (h : Bytes4) (p : Bytes8) : Except Status (List Byte) :=
  if dlcAccepts dlc then .ok (envelopeBytes c h p) else .error .illFormedFrame

/-- The offset of the DLC marker: 3 in variant A, 6 in variant B (R176, R178). -/
def dlcOffset : Variant → Nat
  | .a => 3
  | .b => 6

/-- The offset of the header: 4 in variant A, 2 in variant B (R175). -/
def headerOffset : Variant → Nat
  | .a => 4
  | .b => 2

/-- The offset of the payload: 8 in variant A, 7 in variant B (R175). -/
def payloadOffset : Variant → Nat
  | .a => 8
  | .b => 7

/-- `ENV.DEC` up to the result ports (R175): the exact length first, then the DLC marker byte, and nothing else is
checked (R176, R178). The reads are in range once the length is right (spec/20_memory.md R50), so the last arm is
never taken (Sys2Proof/Laws/Frame.lean). -/
def envDecode (v : Variant) (buf : List Byte) : Except Status (Bytes4 × Bytes8) :=
  if buf.length ≠ envelopeLength v then .error .malformedFrame
  else
    match buf[dlcOffset v]?, bufRead4 buf (headerOffset v), bufRead8 buf (payloadOffset v) with
    | some marker, some h, some p => if marker ≠ dlcLit then .error .malformedFrame else .ok (h, p)
    | _, _, _ => .error .malformedFrame

/-- The result ports of an encode: the envelope and its length (R172). -/
def envelopePorts (v : Variant) (env : List Byte) : OutPorts :=
  { env := some env, envLen := some (BitVec.ofNat 8 (envelopeLength v)) }

/-- `FRAME.ENC` up to the result ports (R180): the frame's three checks, then `AID.PACK` followed by `ENV.ENC`
(R181). -/
def frameEncode (c : Cfg) (dlc command : Byte) (senderTag : BitVec 16) (deviceId : Byte) (p : Bytes8) :
    Except Status (List Byte) :=
  if !dlcAccepts dlc then .error .illFormedFrame
  else
    match aidPackHeader c.variant command senderTag deviceId with
    | .error st => .error st
    | .ok h => envEncode c dlc h p

/-- The result ports of `FRAME.DEC`: the DLC, the three arbitration-ID fields and the payload (R182). -/
def framePorts (v : Variant) (h : Bytes4) (p : Bytes8) : OutPorts :=
  let i := aidOfHeader v h
  { dlc := some dlcLit, command := some (id29Command i), senderTag := some (id29SenderTag i),
    deviceId := some (id29DeviceId i), payload := some p }

/-- `ENV.ENC` (R172). -/
def execEnvEnc (s : State) : Host.Outcome State Fault Refusal :=
  respond ((envEncode s.cfg s.inp.dlc s.inp.h s.inp.payload).map (envelopePorts s.cfg.variant)) s

/-- `ENV.DEC` (R175). -/
def execEnvDec (s : State) : Host.Outcome State Fault Refusal :=
  respond ((envDecode s.cfg.variant s.inp.buf.bytes).map fun hp =>
    { dlc := some dlcLit, h := some hp.1, payload := some hp.2 }) s

/-- `FRAME.ENC` (R180). -/
def execFrameEnc (s : State) : Host.Outcome State Fault Refusal :=
  respond ((frameEncode s.cfg s.inp.dlc s.inp.command s.inp.senderTag s.inp.deviceId s.inp.payload).map
    (envelopePorts s.cfg.variant)) s

/-- `FRAME.DEC` (R182). -/
def execFrameDec (s : State) : Host.Outcome State Fault Refusal :=
  respond ((envDecode s.cfg.variant s.inp.buf.bytes).map fun hp => framePorts s.cfg.variant hp.1 hp.2) s

end Sys2Proof.Machine
end

