-- ==== Sys2Proof/Machine/Scalar.lean ====
section
/-! DEFINITION. The typed scalar packer and unpacker: `PACK.<tag>` and `UNPACK.<tag>` (spec/41_scalar_pack.md). -/

namespace Sys2Proof.Machine

/-- `pack_scalar` (R120, R121): refuse a value the tag cannot hold, else its little-endian bytes padded with zeros to
4. A tag that is none of the seven is `UnknownTypeTag`. -/
def packScalar (tag : Option TypeTag) (val : Word32) : Except Status Bytes4 :=
  match tag with
  | none => .error .unknownTypeTag
  | some t => if fitsTag t val then .ok (paddedLe (tagWidth t) val) else .error .valueOutOfRange

/-- `unpack_scalar` (R120, R131): the little-endian number in the tag's first bytes, extended to 32 bits; the bytes
past the width are ignored (R130). -/
def unpackScalar (tag : Option TypeTag) (b : Bytes4) : Except Status Word32 :=
  match tag with
  | none => .error .unknownTypeTag
  | some t => .ok (extendTag t b)

/-- Deliver a packed scalar on `out.b4`. -/
def respondPacked (r : Except Status Bytes4) (s : State) : Host.Outcome State Fault Refusal :=
  respond (r.map fun b => { b4 := some b }) s

/-- Deliver an unpacked scalar on `out.val`. -/
def respondUnpacked (r : Except Status Word32) (s : State) : Host.Outcome State Fault Refusal :=
  respond (r.map fun v => { val := some v }) s

/-- `PACK.U8` (R122). -/
def execPackU8 (s : State) : Host.Outcome State Fault Refusal := respondPacked (packScalar (some .u8) s.inp.val) s

/-- `PACK.S8` (R123). -/
def execPackS8 (s : State) : Host.Outcome State Fault Refusal := respondPacked (packScalar (some .s8) s.inp.val) s

/-- `PACK.U16` (R124). -/
def execPackU16 (s : State) : Host.Outcome State Fault Refusal := respondPacked (packScalar (some .u16) s.inp.val) s

/-- `PACK.S16` (R125). -/
def execPackS16 (s : State) : Host.Outcome State Fault Refusal := respondPacked (packScalar (some .s16) s.inp.val) s

/-- `PACK.U32` (R126). -/
def execPackU32 (s : State) : Host.Outcome State Fault Refusal := respondPacked (packScalar (some .u32) s.inp.val) s

/-- `PACK.S32` (R127). -/
def execPackS32 (s : State) : Host.Outcome State Fault Refusal := respondPacked (packScalar (some .s32) s.inp.val) s

/-- `PACK.F32` (R128): the pattern moves unchanged, no conversion. -/
def execPackF32 (s : State) : Host.Outcome State Fault Refusal := respondPacked (packScalar (some .f32) s.inp.val) s

/-- `PACK.BADTAG` (R129): `UnknownTypeTag` always; `in.val` is not examined. -/
def execPackBadtag (s : State) : Host.Outcome State Fault Refusal := respondPacked (packScalar none s.inp.val) s

/-- `UNPACK.U8` (R132). -/
def execUnpackU8 (s : State) : Host.Outcome State Fault Refusal := respondUnpacked (unpackScalar (some .u8) s.inp.b4) s

/-- `UNPACK.S8` (R133). -/
def execUnpackS8 (s : State) : Host.Outcome State Fault Refusal := respondUnpacked (unpackScalar (some .s8) s.inp.b4) s

/-- `UNPACK.U16` (R134). -/
def execUnpackU16 (s : State) : Host.Outcome State Fault Refusal :=
  respondUnpacked (unpackScalar (some .u16) s.inp.b4) s

/-- `UNPACK.S16` (R135). -/
def execUnpackS16 (s : State) : Host.Outcome State Fault Refusal :=
  respondUnpacked (unpackScalar (some .s16) s.inp.b4) s

/-- `UNPACK.U32` (R136). -/
def execUnpackU32 (s : State) : Host.Outcome State Fault Refusal :=
  respondUnpacked (unpackScalar (some .u32) s.inp.b4) s

/-- `UNPACK.S32` (R137). -/
def execUnpackS32 (s : State) : Host.Outcome State Fault Refusal :=
  respondUnpacked (unpackScalar (some .s32) s.inp.b4) s

/-- `UNPACK.F32` (R138): the pattern moves unchanged, no widening. -/
def execUnpackF32 (s : State) : Host.Outcome State Fault Refusal :=
  respondUnpacked (unpackScalar (some .f32) s.inp.b4) s

/-- `UNPACK.BADTAG` (R139): `UnknownTypeTag` always; `in.b4` is not examined. -/
def execUnpackBadtag (s : State) : Host.Outcome State Fault Refusal := respondUnpacked (unpackScalar none s.inp.b4) s

end Sys2Proof.Machine
end

