-- ==== Sys2Proof/Machine/Dispatch.lean ====
section
/-! DEFINITION. One arm per operation (spec/30_encoding.md R61): the operation is run on the operands that stand on the
request ports and its response is put on the response ports. -/

namespace Sys2Proof.Machine

def exec (i : Instr) (s : State) : Host.Outcome State Fault Refusal :=
  match i with
  | .quant => Sys2Proof.Machine.execQuant s
  | .dequant => Sys2Proof.Machine.execDequant s
  | .packU8 => Sys2Proof.Machine.execPackU8 s
  | .packS8 => Sys2Proof.Machine.execPackS8 s
  | .packU16 => Sys2Proof.Machine.execPackU16 s
  | .packS16 => Sys2Proof.Machine.execPackS16 s
  | .packU32 => Sys2Proof.Machine.execPackU32 s
  | .packS32 => Sys2Proof.Machine.execPackS32 s
  | .packF32 => Sys2Proof.Machine.execPackF32 s
  | .packBadtag => Sys2Proof.Machine.execPackBadtag s
  | .unpackU8 => Sys2Proof.Machine.execUnpackU8 s
  | .unpackS8 => Sys2Proof.Machine.execUnpackS8 s
  | .unpackU16 => Sys2Proof.Machine.execUnpackU16 s
  | .unpackS16 => Sys2Proof.Machine.execUnpackS16 s
  | .unpackU32 => Sys2Proof.Machine.execUnpackU32 s
  | .unpackS32 => Sys2Proof.Machine.execUnpackS32 s
  | .unpackF32 => Sys2Proof.Machine.execUnpackF32 s
  | .unpackBadtag => Sys2Proof.Machine.execUnpackBadtag s
  | .aidPack => Sys2Proof.Machine.execAidPack s
  | .aidUnpack => Sys2Proof.Machine.execAidUnpack s
  | .envEnc => Sys2Proof.Machine.execEnvEnc s
  | .envDec => Sys2Proof.Machine.execEnvDec s
  | .frameEnc => Sys2Proof.Machine.execFrameEnc s
  | .frameDec => Sys2Proof.Machine.execFrameDec s
  | .fltStatus => Sys2Proof.Machine.execFltStatus s
  | .fltReport => Sys2Proof.Machine.execFltReport s
  | .tlmDec => Sys2Proof.Machine.execTlmDec s
  | .rxDecode => Sys2Proof.Machine.execRxDecode s

end Sys2Proof.Machine
end

