-- ==== Sys2Proof/Machine/HostMoves.lean ====
section
/-! DEFINITION. What each move of the host does to the block (spec/70_reset_and_hazards.md R266, R268). -/

namespace Sys2Proof.Machine

/-- Serve the request that stands on the request ports: `OP` is decoded first; an unassigned selector ends the
operation with `IllegalOp` whatever the operand ports hold (spec/30_encoding.md R62, spec/60_exceptions.md R234). -/
def serveRequest (s : State) : Host.Outcome State Fault Refusal :=
  match decode s.inp.op with
  | .ok i => exec i s
  | .error _ => fail .illegalOp s

/-- The host presents a request. It is accepted only when the previous response has been taken (R268); one request is
one atomic step from request to response (spec/10_state.md R20; notes/assumptions/13.md). -/
def acceptRequest (r : Request) (s : State) : Host.Outcome State Fault Refusal :=
  match s.resp with
  | some _ => .refused .overlappingRequest
  | none => serveRequest { s with inp := r }

/-- One move of the host. -/
def hostMove (m : HostMove) (s : State) : Host.Outcome State Fault Refusal :=
  match m with
  | .assertReset straps => .next (resetBlock straps s)
  | .present r => acceptRequest r s
  | .take => .next (takeResponse s)
  | .idle => .next s

/-- The state in which the host's next move presents a request with the selector `op` and the operands that stand on
the ports, with no response pending, so that it is accepted. -/
def presentNext (op : Byte) (s : State) : State :=
  { s with resp := none, host := .present { s.inp with op := op } :: s.host }

/-- The selector byte of a table word: `OP` is bits 7:0 (spec/30_encoding.md R60). -/
def fetchByte (nbits w : Nat) : Byte := BitVec.ofNat 8 (w % 2 ^ nbits)

end Sys2Proof.Machine
end

