-- ==== Sys2Proof/Machine/Step.lean ====
section
/-! DEFINITION. One step of the machine: the next move of the host is served. The block fetches nothing and has no
program counter (spec/10_state.md R23); "the order of operations is the order in which the host issues requests". -/

namespace Sys2Proof.Machine

/-- One step. When the host has no move left it does nothing and the block stays idle (R266, R264). -/
def step (s : State) : Host.Outcome State Fault Refusal :=
  match s.host with
  | [] => .next s
  | m :: rest => hostMove m { s with host := rest }

/-- The state whose very next step runs the operation with the given selector bits, on the operands that stand on the
request ports (notes/assumptions/10.md). -/
def State.withFetchWord (s : State) (nbits w : Nat) : State := presentNext (fetchByte nbits w) s

end Sys2Proof.Machine
end

