-- ==== Sys2Proof/Safety.lean ====
section
/-! DEFINITION. What counts as a safe run, in the terms the statements use: no partial result is ever on the response
ports, the response that stands there answers the request beside it, and the host speaks in turns. -/

namespace Sys2Proof.Machine

/-- A response that delivers a whole result or none (spec/60_exceptions.md R236, spec/20_memory.md R49). -/
def Response.Whole (r : Response) : Prop := r.status ≠ .ok → r.out = OutPorts.undefined

/-- A block with the given configuration that has served nothing yet. -/
def freshBlock (c : Cfg) : State := { State.resetOf c with cfg := c }

/-- The response a block that has served nothing yet gives to a request: the pure function `CFG -> Request ->
Response` of spec/70_reset_and_hazards.md R267, read off the machine. -/
def freshAnswer (c : Cfg) (r : Request) : Option Response :=
  match step { freshBlock c with host := [.present r] } with
  | .next t => t.resp
  | .fault _ => none
  | .refused _ => none

/-- The state invariant. -/
structure State.Inv (s : State) : Prop where
  /-- No partial result on the response ports (R236). -/
  pendingWhole   : ∀ r, s.resp = some r → r.Whole
  /-- No partial result ever reached the host (R236). -/
  deliveredWhole : ∀ r ∈ s.delivered, r.Whole
  /-- A pending response is the pure function of `CFG` and the request on the ports (spec/20_memory.md R53, R267). -/
  pendingAnswers : ∀ r, s.resp = some r → freshAnswer s.cfg s.inp = some r
  /-- `CFG.RANGE[POS]` is the range the spec fixes (spec/00_scope.md R6, spec/10_state.md R31). -/
  posRange       : s.cfg.posRange = Config.posRange

/-- No request is outstanding, no response is pending, and no port holds a value (spec/10_state.md R22, R30). -/
def State.Quiet (s : State) : Prop := s.resp = none ∧ s.inp = Request.undriven

/-- A host that speaks in turns: it presents each request and takes its response before the next one
(spec/70_reset_and_hazards.md R268). -/
def conversation : List Request → List HostMove
  | [] => []
  | r :: rs => .present r :: .take :: conversation rs

/-- The outcome is a next state: the step was safe, neither a fault nor a refusal. -/
def Safe (o : Host.Outcome State Fault Refusal) : Prop := ∃ t, o = .next t

end Sys2Proof.Machine
end

