-- ==== Sys2Proof/Certificates/Slice0/Obligations.lean ====
section
/-! DEFINITION. The statements for the provers. Each docstring names the rule of spec/ it formalises; where a clause
rests on a choice of the model, the docstring says so and names the log entry. -/

open Sys2Proof Sys2Proof.Machine

/-! ## The selector, the step and the host -/

/-- R60, R234, R266 (derived): when the host's next move presents a request, nothing is outstanding and the selector
decodes, the step is that operation run on the presented request, with the move consumed. The move list is the model's
own presentation of the host (notes/assumptions/7.md). -/
def Obligations.StepRunsThePresentedOperation : Prop :=
  ∀ (s : State) (r : Request) (rest : List HostMove) (i : Instr),
    s.host = .present r :: rest → s.resp = none → decode r.op = .ok i →
    step s = exec i { s with host := rest, inp := r }

/-- R62 (derived; the refusal is the spec's own decision D32): every unassigned value of `OP` ends the operation with
`IllegalOp` and no result, whatever the operands. -/
def Obligations.UnassignedSelectorAnswersIllegalOp : Prop :=
  ∀ (s : State) (r : Request) (rest : List HostMove),
    s.host = .present r :: rest → s.resp = none →
    (0x02 ≤ r.op.toNat ∧ r.op.toNat ≤ 0x0F) ∨ (0x22 ≤ r.op.toNat ∧ r.op.toNat ≤ 0x2F) ∨
      (0x34 ≤ r.op.toNat ∧ r.op.toNat ≤ 0x3F) ∨ 0x44 ≤ r.op.toNat →
    step s = .next { cfg := s.cfg, inp := r, resp := some ⟨.illegalOp, OutPorts.undefined⟩, host := rest,
                     delivered := s.delivered }

/-- R61 (derived): decoding an encoded operation gives it back, and only the 28 assigned selectors decode. -/
def Obligations.SelectorDecodeInvertsEncode : Prop :=
  (∀ i : Instr, decode (encode i) = .ok i) ∧
  (∀ (op : Byte) (i : Instr), decode op = .ok i → encode i = op) ∧
  ∀ op : Byte, selectorWf op = false → decode op = .error (.illegalSelector op)

/-- R61 (derived): one word of each family, written out from the table. -/
def Obligations.SelectorWordsOfTheTable : Prop :=
  decode 0b00000000#8 = .ok .quant ∧ decode 0b00000001#8 = .ok .dequant ∧ decode 0b00010011#8 = .ok .packS16 ∧
  decode 0b00010111#8 = .ok .packBadtag ∧ decode 0b00011110#8 = .ok .unpackF32 ∧ decode 0b00100000#8 = .ok .aidPack ∧
  decode 0b00110011#8 = .ok .frameDec ∧ decode 0b01000011#8 = .ok .rxDecode

/-- R260, R261 (derived): asserting reset samples the straps and leaves no response pending. R31 gives `CFG.RANGE[POS]`
the value (-12.5, 12.5, 16) after reset; that it has this value whatever is strapped for it is the model's deduction
(notes/assumptions/14.md). What the host still plans and has already taken is its own (notes/assumptions/7.md), and
the level of the undriven request ports is the model's choice (notes/assumptions/5.md). -/
def Obligations.ResetSamplesTheStraps : Prop :=
  ∀ (s : State) (straps : Cfg) (rest : List HostMove), s.host = .assertReset straps :: rest →
    step s = .next
      { cfg := { straps with posRange := ⟨0xC029000000000000#64, 0x4029000000000000#64, 16#6⟩ },
        inp := Request.undriven, resp := none, host := rest, delivered := s.delivered }

/-- R268 (derived): a request presented while a response is pending is refused by name; the spec does not define its
effect (notes/assumptions/11.md). -/
def Obligations.OverlappingRequestIsRefused : Prop :=
  ∀ (s : State) (r : Request) (q : Response) (rest : List HostMove),
    s.host = .present r :: rest → s.resp = some q → step s = .refused .overlappingRequest

/-- R22, R264, R266 (derived): a host that does nothing leaves the block as it is; a host that takes the pending
response gets exactly it, and no port keeps a value (the level of the undriven ports is notes/assumptions/5.md, and a
take with nothing pending is notes/assumptions/8.md). -/
def Obligations.TakingClearsThePortsAndIdlingKeepsThem : Prop :=
  ∀ (s : State) (rest : List HostMove),
    (s.host = [] → step s = .next s) ∧
    (s.host = .idle :: rest → step s = .next { s with host := rest }) ∧
    (∀ q, s.host = .take :: rest → s.resp = some q →
      step s = .next { s with host := rest, inp := Request.undriven, resp := none, delivered := s.delivered ++ [q] }) ∧
    (s.host = .take :: rest → s.resp = none → step s = .next { s with host := rest })

/-- R273 (derived; the operations' totality and its rule R105): every operation answers a next state, for every state,
and changes nothing but the response ports: configuration, request ports, the host's moves and what it has taken stay
as they are. This is the frame of all 28 operations. -/
def Obligations.EveryOperationAnswersAndChangesOnlyTheResponse : Prop :=
  ∀ (i : Instr) (s : State), ∃ r : Response,
    exec i s = .next { cfg := s.cfg, inp := s.inp, resp := some r, host := s.host, delivered := s.delivered }

/-- R27, R26, R53 (derived): the response is a function of the configuration fields and the request ports the
operation reads; any two states that agree on those get the same response. -/
def Obligations.ResponseDependsOnlyOnWhatTheOperationReads : Prop :=
  ∀ (i : Instr) (s t : State), readView i s.inp = readView i t.inp → cfgView i s.cfg = cfgView i t.cfg →
    ∃ r : Response, exec i s = .next (s.withResponse r) ∧ exec i t = .next (t.withResponse r)

/-- R28, R236 (derived; the spec's own decisions D1, D29): when `STATUS` is `OK` the ports the operation's rule names
hold values and the rest are undefined; when it is not, no port holds one. -/
def Obligations.OkResponseDefinesExactlyTheOperationsPorts : Prop :=
  ∀ (i : Instr) (s : State), ∃ r : Response, exec i s = .next (s.withResponse r) ∧
    (r.status = .ok → ∀ p, r.out.isDefined p = true ↔ p ∈ resultPorts i s.inp.command) ∧
    (r.status ≠ .ok → ∀ p, r.out.isDefined p = false)

/-- R232 (derived; the table is the spec's own inference from its operation rules): an operation returns a status
exactly where its row says it can, and `InvalidRange` from `TLM.DEC` or `RX.DECODE` only where the configuration is
ill-formed; an unassigned `OP` returns `IllegalOp` always. -/
def Obligations.StatusesAreExactlyThoseOfTheTable : Prop :=
  (∀ (i : Instr) (st : Status),
    st ∈ statusesOf i ↔ ∃ (s : State) (out : OutPorts), exec i s = .next (s.withResponse ⟨st, out⟩)) ∧
  (∀ (s : State) (out : OutPorts), cfgWellFormed binary64 s.cfg = true →
    exec .tlmDec s ≠ .next (s.withResponse ⟨.invalidRange, out⟩) ∧
    exec .rxDecode s ≠ .next (s.withResponse ⟨.invalidRange, out⟩)) ∧
  ∀ s : State, selectorWf s.inp.op = false → serveRequest s = .next (s.withResponse ⟨.illegalOp, OutPorts.undefined⟩)

/-- R26 (derived): no operation writes `CFG`; only reset changes it. -/
def Obligations.OnlyResetChangesTheConfiguration : Prop :=
  ∀ s t : State, step s = .next t → (∀ straps rest, s.host ≠ .assertReset straps :: rest) → t.cfg = s.cfg

/-- The state invariant holds at every reset (derived: R30, R31, R236). Its clause on `CFG.RANGE[POS]` holds for straps
of every kind because sampling sets that field whatever is strapped, the model's deduction
(notes/assumptions/14.md). -/
def Obligations.InvariantHoldsAtReset : Prop :=
  State.reset.Inv ∧ ∀ straps : Cfg, (State.resetOf straps).Inv

/-- Every step keeps the state invariant: no partial result is ever on the response ports or in the host's hands
(R236), a pending response is the pure function of `CFG` and the request beside it (R53, R267), and `CFG.RANGE[POS]`
is the range the spec fixes (R6) (derived). That a reset with straps of every kind keeps the last clause is the model's
deduction: sampling sets that field whatever is strapped (notes/assumptions/14.md). -/
def Obligations.EveryStepKeepsTheInvariant : Prop :=
  ∀ s t : State, s.Inv → step s = .next t → t.Inv

/-- R236 (derived; the spec's own decision D29): with a status that is not `OK` no response port holds a defined
value, for every step that leaves a response pending from a state with none. -/
def Obligations.NoPartialResultOnFailure : Prop :=
  ∀ (s t : State) (r : Response), s.resp = none → step s = .next t → t.resp = some r → r.status ≠ .ok →
    ∀ p, r.out.isDefined p = false

/-- R21, R53, R237, R267 (derived): the block keeps no history. Whatever sequence of requests the host presents,
taking each response before the next request, every response is the one a block that has served nothing would give,
refusals included, and at the end nothing but the host's own record has changed. The level of the undriven request
ports, which the premise `Quiet` and the end state hold, is the model's choice (notes/assumptions/5.md); the host's
coming moves and its record are the model's own (notes/assumptions/7.md). -/
def Obligations.ConversationAnswersAsFreshBlocksDo : Prop :=
  ∀ (rs : List Request) (rest : List HostMove) (s : State), s.Quiet → s.host = conversation rs ++ rest →
    ∃ answers : List Response, answers.map some = rs.map (freshAnswer s.cfg) ∧
      Host.Core.run Sys2Proof.core (2 * rs.length) s =
        .next { s with host := rest, delivered := s.delivered ++ answers }

/-! ## QUANT and DEQUANT -/

/-- R102 (derived; both refusals are the spec's own decision D6): an operand range that is not valid is refused with
`InvalidRange` by both operations, before the NaN check; a NaN operand of `QUANT` is refused with `InvalidOperand`. -/
def Obligations.InvalidRangeAndNaNAreRefusedInOrder : Prop :=
  ∀ s : State,
    let valid : Prop :=
      (s.inp.bits.toNat = 8 ∨ s.inp.bits.toNat = 16 ∨ s.inp.bits.toNat = 32) ∧
      fpIsFinite s.inp.min = true ∧ fpIsFinite s.inp.max = true ∧ fpLt s.inp.min s.inp.max = true ∧
      fpIsFinite (fpSub s.inp.max s.inp.min) = true ∧
      fpIsFinite (fpMul (fpSub s.inp.max s.inp.min) (fpOfNat (2 ^ s.inp.bits.toNat - 1))) = true
    (¬ valid → exec .quant s = .next (s.withResponse ⟨.invalidRange, OutPorts.undefined⟩) ∧
      exec .dequant s = .next (s.withResponse ⟨.invalidRange, OutPorts.undefined⟩)) ∧
    (valid → fpIsNaN s.inp.x = true →
      exec .quant s = .next (s.withResponse ⟨.invalidOperand, OutPorts.undefined⟩)) ∧
    (valid → fpIsNaN s.inp.x = false → ∃ u : Word32, exec .quant s = .next (s.withResponse ⟨.ok, { u := some u }⟩)) ∧
    (valid → ∃ y : F64, exec .dequant s = .next (s.withResponse ⟨.ok, { y := some y }⟩))

/-- R102, R103 and, in the last clause, the bound R105 (derived; the spec marks R105 as its own inference and the two
refusals as its own decision D6): for a valid range and an operand that is not NaN, `QUANT`
completes with the floor of the value the written formula gives, and that floor is at most `M`, so it is the code
exactly, with no wrap and no saturation. -/
def Obligations.QuantDeliversTheTruncatedCode : Prop :=
  ∀ s : State,
    (rangeValid binary64 s.inp.range = false →
      exec .quant s = .next (s.withResponse ⟨.invalidRange, OutPorts.undefined⟩)) ∧
    (rangeValid binary64 s.inp.range = true → fpIsNaN s.inp.x = true →
      exec .quant s = .next (s.withResponse ⟨.invalidOperand, OutPorts.undefined⟩)) ∧
    (rangeValid binary64 s.inp.range = true → fpIsNaN s.inp.x = false →
      let M := 2 ^ s.inp.bits.toNat - 1
      let xc := if fpGt s.inp.x s.inp.max then s.inp.max else if fpLt s.inp.x s.inp.min then s.inp.min else s.inp.x
      let t := fpDiv (fpMul (fpSub xc s.inp.min) (fpOfNat M)) (fpSub s.inp.max s.inp.min)
      ∃ u : Word32, exec .quant s = .next (s.withResponse ⟨.ok, { u := some u }⟩) ∧
        u.toNat = fpFloorToNat t ∧ u.toNat ≤ M)

/-- R109: `QUANT` clamps: an operand above the maximum gives what the maximum gives, one below the minimum what the
minimum gives, infinities included. -/
def Obligations.QuantClampsOutOfRangeOperands : Prop :=
  ∀ s : State, rangeValid binary64 s.inp.range = true → fpIsNaN s.inp.x = false →
    (fpLt s.inp.max s.inp.x = true → ∃ u : Word32,
      exec .quant s = .next (s.withResponse ⟨.ok, { u := some u }⟩) ∧
      exec .quant { s with inp := { s.inp with x := s.inp.max } } =
        .next ({ s with inp := { s.inp with x := s.inp.max } }.withResponse ⟨.ok, { u := some u }⟩)) ∧
    (fpLt s.inp.x s.inp.min = true → ∃ u : Word32,
      exec .quant s = .next (s.withResponse ⟨.ok, { u := some u }⟩) ∧
      exec .quant { s with inp := { s.inp with x := s.inp.min } } =
        .next ({ s with inp := { s.inp with x := s.inp.min } }.withResponse ⟨.ok, { u := some u }⟩))

/-- R104, rows `x = min`, `x < min` and `x = -0.0` with `min = 0.0` (derived): an operand that is not above the
minimum gives the code 0. -/
def Obligations.QuantAtOrBelowMinimumIsZero : Prop :=
  ∀ s : State, rangeValid binary64 s.inp.range = true → fpIsNaN s.inp.x = false → fpLt s.inp.min s.inp.x = false →
    exec .quant s = .next (s.withResponse ⟨.ok, { u := some 0#32 }⟩)

/-- R106: for a valid range `DEQUANT` completes with the value the written formula gives, the code clamped to `M`; for
any other range it answers `InvalidRange`. -/
def Obligations.DequantDeliversTheFormula : Prop :=
  ∀ s : State,
    (rangeValid binary64 s.inp.range = false →
      exec .dequant s = .next (s.withResponse ⟨.invalidRange, OutPorts.undefined⟩)) ∧
    (rangeValid binary64 s.inp.range = true →
      let M := 2 ^ s.inp.bits.toNat - 1
      let uc := if s.inp.u.toNat > M then M else s.inp.u.toNat
      exec .dequant s = .next (s.withResponse ⟨.ok,
        { y := some (fpAdd s.inp.min (fpDiv (fpMul (fpOfNat uc) (fpSub s.inp.max s.inp.min)) (fpOfNat M))) }⟩))

/-- R107, rows `u = 0` and `u > M` (derived): the code 0 gives the minimum (the value of -0.0 as +0.0, as the binary64
sum with +0.0 is, notes/assumptions/12.md), and a code above `M` gives what `M` gives. -/
def Obligations.DequantAtZeroAndAboveTheTop : Prop :=
  ∀ s : State, rangeValid binary64 s.inp.range = true →
    (s.inp.u = 0#32 → exec .dequant s = .next (s.withResponse ⟨.ok,
      { y := some (if s.inp.min = 0x8000000000000000#64 then 0#64 else s.inp.min) }⟩)) ∧
    (2 ^ s.inp.bits.toNat - 1 < s.inp.u.toNat → ∃ y : F64,
      exec .dequant s = .next (s.withResponse ⟨.ok, { y := some y }⟩) ∧
      exec .dequant { s with inp := { s.inp with u := BitVec.ofNat 32 (2 ^ s.inp.bits.toNat - 1) } } =
        .next ({ s with inp := { s.inp with u := BitVec.ofNat 32 (2 ^ s.inp.bits.toNat - 1) } }.withResponse
          ⟨.ok, { y := some y }⟩))

/-- R110 (derived; the spec's own inference, the source does not state it): in the binary64 evaluation both operations
are monotone for a fixed valid range. `x1 <= x2` is read as "x2 is not below x1" on operands that are not NaN, and so
for the results, which are never NaN. -/
def Obligations.QuantAndDequantAreMonotone : Prop :=
  ∀ s t : State, s.inp.range = t.inp.range → rangeValid binary64 s.inp.range = true →
    (fpIsNaN s.inp.x = false → fpIsNaN t.inp.x = false → fpLt t.inp.x s.inp.x = false →
      ∃ u v : Word32, exec .quant s = .next (s.withResponse ⟨.ok, { u := some u }⟩) ∧
        exec .quant t = .next (t.withResponse ⟨.ok, { u := some v }⟩) ∧ u.toNat ≤ v.toNat) ∧
    (s.inp.u.toNat ≤ t.inp.u.toNat →
      ∃ y z : F64, exec .dequant s = .next (s.withResponse ⟨.ok, { y := some y }⟩) ∧
        exec .dequant t = .next (t.withResponse ⟨.ok, { y := some z }⟩) ∧
        fpIsNaN y = false ∧ fpIsNaN z = false ∧ fpLt z y = false)

/-- R111, R114 (derived): over (-12.5, 12.5, 16), `QUANT` of 0.0 is 32767 by truncation, `DEQUANT` of 1 is
0xC028FFCDFFCDFFCE, and `QUANT` of that value is 0, not 1. -/
def Obligations.QuantizingADequantizedCodeCanLoseOne : Prop :=
  ∀ s : State, s.inp.range = ⟨0xC029000000000000#64, 0x4029000000000000#64, 16#6⟩ →
    (s.inp.x = 0#64 → exec .quant s = .next (s.withResponse ⟨.ok, { u := some 32767#32 }⟩)) ∧
    (s.inp.u = 1#32 → exec .dequant s = .next (s.withResponse ⟨.ok, { y := some 0xC028FFCDFFCDFFCE#64 }⟩)) ∧
    (s.inp.x = 0xC028FFCDFFCDFFCE#64 → exec .quant s = .next (s.withResponse ⟨.ok, { u := some 0#32 }⟩))

/-! ## The typed scalars -/

/-- R122, R124: an unsigned tag accepts exactly the values its width holds and packs them little-endian with zero
padding; any other value is `ValueOutOfRange`. -/
def Obligations.PackUnsignedAcceptsExactlyItsWidth : Prop :=
  ∀ s : State,
    (s.inp.val.toNat ≤ 255 → exec .packU8 s = .next (s.withResponse ⟨.ok,
      { b4 := some ⟨BitVec.ofNat 8 s.inp.val.toNat, 0#8, 0#8, 0#8⟩ }⟩)) ∧
    (255 < s.inp.val.toNat → exec .packU8 s = .next (s.withResponse ⟨.valueOutOfRange, OutPorts.undefined⟩)) ∧
    (s.inp.val.toNat ≤ 65535 → exec .packU16 s = .next (s.withResponse ⟨.ok,
      { b4 := some ⟨BitVec.ofNat 8 s.inp.val.toNat, BitVec.ofNat 8 (s.inp.val.toNat / 256), 0#8, 0#8⟩ }⟩)) ∧
    (65535 < s.inp.val.toNat → exec .packU16 s = .next (s.withResponse ⟨.valueOutOfRange, OutPorts.undefined⟩))

/-- R123, R125: a signed tag accepts exactly the two's complement values its width holds; the padding is zero and not
a sign extension. -/
def Obligations.PackSignedAcceptsExactlyItsWidth : Prop :=
  ∀ s : State,
    (-128 ≤ s.inp.val.toInt ∧ s.inp.val.toInt ≤ 127 → exec .packS8 s = .next (s.withResponse ⟨.ok,
      { b4 := some ⟨BitVec.ofInt 8 s.inp.val.toInt, 0#8, 0#8, 0#8⟩ }⟩)) ∧
    (s.inp.val.toInt < -128 ∨ 127 < s.inp.val.toInt →
      exec .packS8 s = .next (s.withResponse ⟨.valueOutOfRange, OutPorts.undefined⟩)) ∧
    (-32768 ≤ s.inp.val.toInt ∧ s.inp.val.toInt ≤ 32767 → exec .packS16 s = .next (s.withResponse ⟨.ok,
      { b4 := some ⟨s.inp.val.extractLsb' 0 8, s.inp.val.extractLsb' 8 8, 0#8, 0#8⟩ }⟩)) ∧
    (s.inp.val.toInt < -32768 ∨ 32767 < s.inp.val.toInt →
      exec .packS16 s = .next (s.withResponse ⟨.valueOutOfRange, OutPorts.undefined⟩))

/-- R126, R127, R128 (derived; that `PACK.F32` takes the binary32 pattern as given is the spec's own decision D8): the
three 32-bit tags pack every pattern into the same four little-endian bytes. -/
def Obligations.PackFullWidthIsLittleEndian : Prop :=
  ∀ (s : State) (i : Instr), i = .packU32 ∨ i = .packS32 ∨ i = .packF32 →
    exec i s = .next (s.withResponse ⟨.ok,
      { b4 := some ⟨BitVec.ofNat 8 s.inp.val.toNat, BitVec.ofNat 8 (s.inp.val.toNat / 2 ^ 8),
                    BitVec.ofNat 8 (s.inp.val.toNat / 2 ^ 16), BitVec.ofNat 8 (s.inp.val.toNat / 2 ^ 24)⟩ }⟩)

/-- R132, R134, R136, R137, R138: the unsigned and 32-bit tags unpack the little-endian number in their first bytes
and ignore the bytes past the width. -/
def Obligations.UnpackReadsTheLittleEndianNumber : Prop :=
  ∀ s : State,
    (∃ v : Word32, exec .unpackU8 s = .next (s.withResponse ⟨.ok, { val := some v }⟩) ∧
      v.toNat = s.inp.b4.b0.toNat) ∧
    (∃ v : Word32, exec .unpackU16 s = .next (s.withResponse ⟨.ok, { val := some v }⟩) ∧
      v.toNat = s.inp.b4.b0.toNat + 256 * s.inp.b4.b1.toNat) ∧
    ∀ i : Instr, i = .unpackU32 ∨ i = .unpackS32 ∨ i = .unpackF32 →
      ∃ v : Word32, exec i s = .next (s.withResponse ⟨.ok, { val := some v }⟩) ∧
        v.toNat = s.inp.b4.b0.toNat + 256 * s.inp.b4.b1.toNat + 65536 * s.inp.b4.b2.toNat +
          16777216 * s.inp.b4.b3.toNat

/-- R133, R135: the narrow signed tags unpack the two's complement number in their first bytes, sign-extended to the
32-bit port. -/
def Obligations.UnpackSignedExtendsTheSign : Prop :=
  ∀ s : State,
    (∃ v : Word32, exec .unpackS8 s = .next (s.withResponse ⟨.ok, { val := some v }⟩) ∧
      v.toInt = s.inp.b4.b0.toInt) ∧
    (∃ v : Word32, exec .unpackS16 s = .next (s.withResponse ⟨.ok, { val := some v }⟩) ∧
      v.toInt = 256 * s.inp.b4.b1.toInt + s.inp.b4.b0.toNat)

/-- R129, R139: the two operations that stand for an unknown tag end with `UnknownTypeTag` always, and examine no
operand. -/
def Obligations.BadTagAlwaysAnswersUnknownTypeTag : Prop :=
  ∀ s : State, exec .packBadtag s = .next (s.withResponse ⟨.unknownTypeTag, OutPorts.undefined⟩) ∧
    exec .unpackBadtag s = .next (s.withResponse ⟨.unknownTypeTag, OutPorts.undefined⟩)

/-- R141 (derived; the spec's own inference for every value and for the second direction): for every tag, unpacking
what packing delivered gives the value back; packing what unpacking delivered gives the bytes back exactly where the
bytes beyond the tag's width are zero. -/
def Obligations.ScalarRoundTripForEveryTag : Prop :=
  ∀ (tag : TypeTag) (s t : State),
    (∀ b : Bytes4, exec (packOfTag (some tag)) s = .next (s.withResponse ⟨.ok, { b4 := some b }⟩) → t.inp.b4 = b →
      exec (unpackOfTag (some tag)) t = .next (t.withResponse ⟨.ok, { val := some s.inp.val }⟩)) ∧
    (∀ v : Word32, exec (unpackOfTag (some tag)) s = .next (s.withResponse ⟨.ok, { val := some v }⟩) → t.inp.val = v →
      (exec (packOfTag (some tag)) t = .next (t.withResponse ⟨.ok, { b4 := some s.inp.b4 }⟩) ↔
        (tagWidth tag ≤ 1 → s.inp.b4.b1 = 0#8) ∧ (tagWidth tag ≤ 2 → s.inp.b4.b2 = 0#8 ∧ s.inp.b4.b3 = 0#8)))

/-! ## The arbitration ID -/

/-- R71, R72, R152 (derived; the shifts, the marker bit and the refusal are the spec's own decisions D11 to D13 and
D15): the header bytes of an accepted `AID.PACK`, bit by bit in each variant; anything else is `IllFormedFrame`
(R151). -/
def Obligations.AidPackBuildsTheHeaderBytes : Prop :=
  ∀ s : State,
    (s.inp.command.toNat ≤ 31 ∧ s.inp.deviceId.toNat ≤ 127 → s.cfg.variant = .a →
      exec .aidPack s = .next (s.withResponse ⟨.ok, { h := (some
        ⟨s.inp.command, s.inp.senderTag.extractLsb' 8 8, s.inp.senderTag.extractLsb' 0 8, s.inp.deviceId⟩) }⟩)) ∧
    (s.inp.command.toNat ≤ 31 ∧ s.inp.deviceId.toNat ≤ 127 → s.cfg.variant = .b →
      exec .aidPack s = .next (s.withResponse ⟨.ok, { h := (some
        ⟨s.inp.command.extractLsb' 0 5 ++ s.inp.senderTag.extractLsb' 13 3,
         s.inp.senderTag.extractLsb' 5 8,
         s.inp.senderTag.extractLsb' 0 5 ++ s.inp.deviceId.extractLsb' 5 3,
         s.inp.deviceId.extractLsb' 0 5 ++ 0b100#3⟩) }⟩)) ∧
    (31 < s.inp.command.toNat ∨ 127 < s.inp.deviceId.toNat →
      exec .aidPack s = .next (s.withResponse ⟨.illFormedFrame, OutPorts.undefined⟩))

/-- R155, R156 (derived; the totality and the ignored bits are the spec's own decision D14): `AID.UNPACK` is total and
reads the three fields at the variant's positions, every other bit ignored. -/
def Obligations.AidUnpackReadsTheFields : Prop :=
  ∀ s : State,
    (s.cfg.variant = .a →
      exec .aidUnpack s = .next (s.withResponse ⟨.ok,
        { command := some (s.inp.h.b0.extractLsb' 0 5), senderTag := some (s.inp.h.b1 ++ s.inp.h.b2),
          deviceId := some s.inp.h.b3 }⟩)) ∧
    (s.cfg.variant = .b →
      exec .aidUnpack s = .next (s.withResponse ⟨.ok,
        { command := some (s.inp.h.b0.extractLsb' 3 5),
          senderTag := some (s.inp.h.b0.extractLsb' 0 3 ++ s.inp.h.b1 ++ s.inp.h.b2.extractLsb' 3 5),
          deviceId := some (s.inp.h.b2.extractLsb' 0 3 ++ s.inp.h.b3.extractLsb' 3 5) }⟩))

/-- R157 (derived; the spec's own inference from R152): the headers `AID.PACK` produces: in variant A those with
`W32[31:29] = 0` and `W32[7] = 0`, in variant B those with `W32[2:0] = 0b100` and `W32[10] = 0`. -/
def Obligations.AidPackImageIsExactlyTheFixedBits : Prop :=
  ∀ (c : Cfg) (h : Bytes4),
    (∃ s : State, s.cfg = c ∧ exec .aidPack s = .next (s.withResponse ⟨.ok, { h := some h }⟩)) ↔
      (match c.variant with
       | .a => (be32 h).extractLsb' 29 3 = 0#3 ∧ (be32 h).getLsbD 7 = false
       | .b => (be32 h).extractLsb' 0 3 = 0b100#3 ∧ (be32 h).getLsbD 10 = false)

/-- R158 (derived; the spec's own inference from R152 and R155): `AID.UNPACK` inverts `AID.PACK` on every well-formed
triple in either variant; in the other direction packing what unpacking gave returns the header exactly where some
triple packs to it. -/
def Obligations.AidPackAndUnpackAreInverse : Prop :=
  ∀ s t : State, s.cfg.variant = t.cfg.variant →
    (∀ h : Bytes4, exec .aidPack s = .next (s.withResponse ⟨.ok, { h := some h }⟩) → t.inp.h = h →
      exec .aidUnpack t = .next (t.withResponse ⟨.ok,
        { command := some (s.inp.command.setWidth 5), senderTag := some s.inp.senderTag,
          deviceId := some s.inp.deviceId }⟩)) ∧
    (s.inp.command.toNat ≤ 31 ∧ s.inp.deviceId.toNat ≤ 127 →
      ∃ h : Bytes4, exec .aidPack s = .next (s.withResponse ⟨.ok, { h := some h }⟩)) ∧
    (∀ (c : BitVec 5) (g : BitVec 16) (d : Byte),
      exec .aidUnpack t = .next (t.withResponse ⟨.ok,
        { command := some c, senderTag := some g, deviceId := some d }⟩) →
      s.inp.command = c.setWidth 8 → s.inp.senderTag = g → s.inp.deviceId = d →
      (exec .aidPack s = .next (s.withResponse ⟨.ok, { h := some t.inp.h }⟩) ↔
        ∃ q : State, q.cfg = t.cfg ∧ exec .aidPack q = .next (q.withResponse ⟨.ok, { h := some t.inp.h }⟩)))

/-! ## The envelope and the frame -/

/-- R171, R172 (derived; the refusal and the open fixed bytes are the spec's own decisions D15 to D17): `ENV.ENC`
accepts `dlc = 8` alone and lays out the 16 or 17 bytes of the variant. -/
def Obligations.EnvEncLaysOutTheEnvelope : Prop :=
  ∀ s : State,
    (s.inp.dlc = 8#8 → s.cfg.variant = .a →
      exec .envEnc s = .next (s.withResponse ⟨.ok,
        { env := some ([s.cfg.aSof, s.cfg.aLen, s.cfg.aRsv, 8#8] ++ s.inp.h.toList ++ s.inp.payload.toList),
          envLen := some 16#8 }⟩)) ∧
    (s.inp.dlc = 8#8 → s.cfg.variant = .b →
      exec .envEnc s = .next (s.withResponse ⟨.ok,
        { env := some ([s.cfg.bSof0, s.cfg.bSof1] ++ s.inp.h.toList ++ [8#8] ++ s.inp.payload.toList ++
                       [s.cfg.bEof0, s.cfg.bEof1]),
          envLen := some 17#8 }⟩)) ∧
    (s.inp.dlc ≠ 8#8 → exec .envEnc s = .next (s.withResponse ⟨.illFormedFrame, OutPorts.undefined⟩))

/-- R175, R176, R178: `ENV.DEC` checks the exact length and the DLC marker and nothing else; it returns the header and
the payload as found. -/
def Obligations.EnvDecChecksLengthAndMarkerOnly : Prop :=
  ∀ s : State,
    (s.cfg.variant = .a → ∀ (f0 f1 f2 : Byte) (h : Bytes4) (p : Bytes8),
      s.inp.buf.bytes = [f0, f1, f2, 8#8] ++ h.toList ++ p.toList →
      exec .envDec s = .next (s.withResponse ⟨.ok, { dlc := some 8#8, h := some h, payload := some p }⟩)) ∧
    (s.cfg.variant = .a → s.inp.buf.bytes.length ≠ 16 ∨ s.inp.buf.bytes[3]? ≠ some 8#8 →
      exec .envDec s = .next (s.withResponse ⟨.malformedFrame, OutPorts.undefined⟩)) ∧
    (s.cfg.variant = .b → ∀ (f0 f1 f2 f3 : Byte) (h : Bytes4) (p : Bytes8),
      s.inp.buf.bytes = [f0, f1] ++ h.toList ++ [8#8] ++ p.toList ++ [f2, f3] →
      exec .envDec s = .next (s.withResponse ⟨.ok, { dlc := some 8#8, h := some h, payload := some p }⟩)) ∧
    (s.cfg.variant = .b → s.inp.buf.bytes.length ≠ 17 ∨ s.inp.buf.bytes[6]? ≠ some 8#8 →
      exec .envDec s = .next (s.withResponse ⟨.malformedFrame, OutPorts.undefined⟩))

/-- R184 (derived; the spec's own inference from R175): `ENV.DEC` and `FRAME.DEC` return `MalformedFrame` exactly on a
wrong length or a wrong marker byte, and then no port is defined; otherwise both return `OK`. -/
def Obligations.MalformedFrameExactlyOnLengthOrMarker : Prop :=
  ∀ (s : State) (i : Instr), i = .envDec ∨ i = .frameDec →
    let bad : Prop := match s.cfg.variant with
      | .a => s.inp.buf.bytes.length ≠ 16 ∨ s.inp.buf.bytes[3]? ≠ some 8#8
      | .b => s.inp.buf.bytes.length ≠ 17 ∨ s.inp.buf.bytes[6]? ≠ some 8#8
    (bad → exec i s = .next (s.withResponse ⟨.malformedFrame, OutPorts.undefined⟩)) ∧
    (¬ bad → ∃ out : OutPorts, exec i s = .next (s.withResponse ⟨.ok, out⟩))

/-- R181 (derived; the spec's own inference from R180): `FRAME.ENC` is exactly `AID.PACK` followed by `ENV.ENC`. -/
def Obligations.FrameEncIsAidPackThenEnvEnc : Prop :=
  ∀ (s : State) (env : List Byte) (n : Byte),
    (exec .frameEnc s = .next (s.withResponse ⟨.ok, { env := some env, envLen := some n }⟩) ↔
      ∃ h : Bytes4, exec .aidPack s = .next (s.withResponse ⟨.ok, { h := some h }⟩) ∧
        exec .envEnc { s with inp := { s.inp with h := h } } =
          .next ({ s with inp := { s.inp with h := h } }.withResponse ⟨.ok, { env := some env, envLen := some n }⟩)) ∧
    (s.inp.dlc ≠ 8#8 ∨ 31 < s.inp.command.toNat ∨ 127 < s.inp.deviceId.toNat →
      exec .frameEnc s = .next (s.withResponse ⟨.illFormedFrame, OutPorts.undefined⟩)) ∧
    (s.inp.dlc = 8#8 ∧ s.inp.command.toNat ≤ 31 ∧ s.inp.deviceId.toNat ≤ 127 →
      ∃ (e : List Byte) (k : Byte),
        exec .frameEnc s = .next (s.withResponse ⟨.ok, { env := some e, envLen := some k }⟩))

/-- R182 (derived; the spec's own inference from R155 and R175): `FRAME.DEC` is `ENV.DEC` followed by `AID.UNPACK` on
the header it found, with no further check. -/
def Obligations.FrameDecIsEnvDecThenAidUnpack : Prop :=
  ∀ s : State,
    (∀ (h : Bytes4) (p : Bytes8) (c : BitVec 5) (g : BitVec 16) (d : Byte),
      exec .envDec s = .next (s.withResponse ⟨.ok, { dlc := some 8#8, h := some h, payload := some p }⟩) →
      exec .aidUnpack { s with inp := { s.inp with h := h } } =
        .next ({ s with inp := { s.inp with h := h } }.withResponse ⟨.ok,
          { command := some c, senderTag := some g, deviceId := some d }⟩) →
      exec .frameDec s = .next (s.withResponse ⟨.ok,
        { dlc := some 8#8, command := some c, senderTag := some g, deviceId := some d, payload := some p }⟩)) ∧
    (exec .envDec s = .next (s.withResponse ⟨.malformedFrame, OutPorts.undefined⟩) ↔
      exec .frameDec s = .next (s.withResponse ⟨.malformedFrame, OutPorts.undefined⟩))

/-- R183 (derived; the source's round trip as the spec infers it from R172, R175 and R158): for either variant, any
values of the fixed bytes and every well-formed LogicalFrame, `FRAME.ENC` returns `OK` with an envelope that
`FRAME.DEC` of the same variant decodes to exactly the fields of the frame; likewise `ENV.DEC` after `ENV.ENC` for
every header and payload. The decoding instance may hold other fixed bytes. -/
def Obligations.FrameRoundTripInBothVariants : Prop :=
  ∀ s t : State, s.cfg.variant = t.cfg.variant → s.inp.dlc = 8#8 →
    (s.inp.command.toNat ≤ 31 → s.inp.deviceId.toNat ≤ 127 →
      ∃ (e : List Byte) (n : Byte),
        exec .frameEnc s = .next (s.withResponse ⟨.ok, { env := some e, envLen := some n }⟩) ∧ n.toNat = e.length ∧
        (t.inp.buf.bytes = e → exec .frameDec t = .next (t.withResponse ⟨.ok,
          { dlc := some s.inp.dlc, command := some (s.inp.command.setWidth 5), senderTag := some s.inp.senderTag,
            deviceId := some s.inp.deviceId, payload := some s.inp.payload }⟩))) ∧
    ∃ (e : List Byte) (n : Byte),
      exec .envEnc s = .next (s.withResponse ⟨.ok, { env := some e, envLen := some n }⟩) ∧ n.toNat = e.length ∧
      (t.inp.buf.bytes = e → exec .envDec t = .next (t.withResponse ⟨.ok,
        { dlc := some 8#8, h := some s.inp.h, payload := some s.inp.payload }⟩))

/-- R159 (derived): a header packed under one variant and unpacked under the other gives wrong fields without any
error. -/
def Obligations.VariantMismatchIsNotDetected : Prop :=
  ∀ s : State, s.cfg.variant = .b → s.inp.h = ⟨0x03#8, 0x00#8, 0xFD#8, 0x01#8⟩ →
    exec .aidUnpack s = .next (s.withResponse ⟨.ok,
      { command := some 0#5, senderTag := some 0x601F#16, deviceId := some 0xA0#8 }⟩)

/-! ## The classifier -/

/-- R202, R203 (derived; that `fault` is the OR of the six bits is the spec's own decision D21): `FLT.STATUS` always
completes; each of the six categories is its bit of the word, `fault` is their OR, and the mode is bits 7:6, with 3
decoded to none of the named modes. -/
def Obligations.FltStatusClassifiesBitByBit : Prop :=
  ∀ s : State, ∃ (set : BitVec 6) (fault : Bool) (raw : BitVec 2) (mode : ModeStatus),
    exec .fltStatus s = .next (s.withResponse ⟨.ok,
      { faultSet := some set, fault := some fault, modeRaw := some raw, mode := some mode }⟩) ∧
    (∀ k, k < 6 → set.getLsbD k = s.inp.statusWord.getLsbD k) ∧
    (fault = true ↔ ∃ k, k < 6 ∧ s.inp.statusWord.getLsbD k = true) ∧
    raw.toNat = s.inp.statusWord.toNat / 64 % 4 ∧
    (raw.toNat = 0 → mode = .reset) ∧ (raw.toNat = 1 → mode = .calibrate) ∧ (raw.toNat = 2 → mode = .run) ∧
    (raw.toNat = 3 → mode = .reserved3)

/-- R206, R207 (derived; the overload flag is the spec's own decision D22): `FLT.REPORT` always completes; each output
is its bits of the payload. -/
def Obligations.FltReportReadsItsBits : Prop :=
  ∀ s : State, exec .fltReport s = .next (s.withResponse ⟨.ok,
    { repUncal := some (s.inp.payload.b0.getLsbD 7), repOverloadMask := some s.inp.payload.b1,
      repOverload := some (decide (s.inp.payload.b1.toNat ≠ 0)), repPhaseAOc := some (s.inp.payload.b2.getLsbD 0),
      repOvertempWarn := some (s.inp.payload.b4.getLsbD 0) }⟩)

/-- R83 (derived): the two fault layouts share no output port: no port is defined both by an `FLT.STATUS` response and
by an `FLT.REPORT` response. -/
def Obligations.TheTwoFaultLayoutsShareNoPort : Prop :=
  ∀ (s t : State) (q r : Response) (p : PortName), exec .fltStatus s = .next (s.withResponse q) →
    exec .fltReport t = .next (t.withResponse r) → ¬ (q.out.isDefined p = true ∧ r.out.isDefined p = true)

/-- R210, R211 (derived; the temperature product is the spec's own decisions D5, D23): with the three configured
ranges valid, `TLM.DEC` completes with the four big-endian fields, each of the first three dequantized as `DEQUANT`
does with the configured range, and the temperature times the rounded tenth; with one of them not valid it is
`InvalidRange`. -/
def Obligations.TlmDecDequantizesTheFields : Prop :=
  ∀ s : State,
    (rangeValid binary64 s.cfg.posRange = true → rangeValid binary64 s.cfg.velRange = true →
      rangeValid binary64 s.cfg.trqRange = true →
      ∃ (pu vu tu tr : BitVec 16) (pos vel trq : F64),
        exec .tlmDec s = .next (s.withResponse ⟨.ok,
          { posU := some pu, velU := some vu, trqU := some tu, tempRaw := some tr, pos := some pos, vel := some vel,
            trq := some trq, tempC := some (fpMul (fpOfNat tr.toNat) 0x3FB999999999999A#64) }⟩) ∧
        pu.toNat = 256 * s.inp.payload.b0.toNat + s.inp.payload.b1.toNat ∧
        vu.toNat = 256 * s.inp.payload.b2.toNat + s.inp.payload.b3.toNat ∧
        tu.toNat = 256 * s.inp.payload.b4.toNat + s.inp.payload.b5.toNat ∧
        tr.toNat = 256 * s.inp.payload.b6.toNat + s.inp.payload.b7.toNat ∧
        (∀ q : State, q.inp.range = s.cfg.posRange → q.inp.u.toNat = pu.toNat →
          exec .dequant q = .next (q.withResponse ⟨.ok, { y := some pos }⟩)) ∧
        (∀ q : State, q.inp.range = s.cfg.velRange → q.inp.u.toNat = vu.toNat →
          exec .dequant q = .next (q.withResponse ⟨.ok, { y := some vel }⟩)) ∧
        (∀ q : State, q.inp.range = s.cfg.trqRange → q.inp.u.toNat = tu.toNat →
          exec .dequant q = .next (q.withResponse ⟨.ok, { y := some trq }⟩))) ∧
    (rangeValid binary64 s.cfg.posRange = false ∨ rangeValid binary64 s.cfg.velRange = false ∨
      rangeValid binary64 s.cfg.trqRange = false →
      exec .tlmDec s = .next (s.withResponse ⟨.invalidRange, OutPorts.undefined⟩))

/-- R213 (derived): the source's scenario payload decodes to a position of half a step, 0x3F29001900190000, not 0.0.
-/
def Obligations.ScenarioPayloadDecodesToHalfAStep : Prop :=
  ∀ s : State, s.cfg.posRange = ⟨0xC029000000000000#64, 0x4029000000000000#64, 16#6⟩ →
    rangeValid binary64 s.cfg.velRange = true → rangeValid binary64 s.cfg.trqRange = true →
    s.inp.payload = ⟨0x80#8, 0x00#8, 0x80#8, 0x00#8, 0x80#8, 0x00#8, 0x00#8, 0x00#8⟩ →
    ∃ out : OutPorts, exec .tlmDec s = .next (s.withResponse ⟨.ok, out⟩) ∧ out.posU = some 0x8000#16 ∧
      out.velU = some 0x8000#16 ∧ out.trqU = some 0x8000#16 ∧ out.tempRaw = some 0#16 ∧
      out.pos = some 0x3F29001900190000#64 ∧ out.tempC = some 0#64

/-- R200, R215 (derived; the reply routes and the `NotDecodable` refusal are the spec's own decisions D20, D36):
`RX.DECODE` takes the status word and the reply id by the configured route; on command 2 it delivers what `TLM.DEC`
and `FLT.STATUS` deliver, on command 21 what `FLT.REPORT` delivers, with the reply id and the kind; on any other
command it is `NotDecodable`. -/
def Obligations.RxDecodeRunsThePathOfTheCommand : Prop :=
  ∀ s : State,
    let word : BitVec 16 := match s.cfg.replyRoute with
      | .literal => s.inp.senderTag
      | .firmware => (s.inp.senderTag.extractLsb' 8 8).setWidth 16
    let replyId : Byte := match s.cfg.replyRoute with
      | .literal => s.inp.deviceId
      | .firmware => s.inp.senderTag.extractLsb' 0 8
    (s.inp.command = 2#8 → ∀ (tlm flt : OutPorts) (q : State), q.inp.statusWord = word →
      exec .tlmDec s = .next (s.withResponse ⟨.ok, tlm⟩) → exec .fltStatus q = .next (q.withResponse ⟨.ok, flt⟩) →
      exec .rxDecode s = .next (s.withResponse ⟨.ok,
        { tlm with faultSet := flt.faultSet, fault := flt.fault, modeRaw := flt.modeRaw, mode := flt.mode,
                   replyId := some replyId, kind := some .motionStatus }⟩)) ∧
    (s.inp.command = 2#8 → exec .tlmDec s = .next (s.withResponse ⟨.invalidRange, OutPorts.undefined⟩) →
      exec .rxDecode s = .next (s.withResponse ⟨.invalidRange, OutPorts.undefined⟩)) ∧
    (s.inp.command = 21#8 → ∀ rep : OutPorts, exec .fltReport s = .next (s.withResponse ⟨.ok, rep⟩) →
      exec .rxDecode s = .next (s.withResponse ⟨.ok,
        { rep with replyId := some replyId, kind := some .faultReport }⟩)) ∧
    (s.inp.command ≠ 2#8 → s.inp.command ≠ 21#8 →
      exec .rxDecode s = .next (s.withResponse ⟨.notDecodable, OutPorts.undefined⟩))

/-- R215 (derived): `RX.DECODE` completes with a result on command 2 when the three configured ranges are valid, and
on command 21 always. -/
def Obligations.RxDecodeCompletes : Prop :=
  ∀ s : State,
    (s.inp.command = 2#8 → rangeValid binary64 s.cfg.posRange = true → rangeValid binary64 s.cfg.velRange = true →
      rangeValid binary64 s.cfg.trqRange = true →
      ∃ out : OutPorts, exec .rxDecode s = .next (s.withResponse ⟨.ok, out⟩) ∧ out.kind = some .motionStatus) ∧
    (s.inp.command = 21#8 →
      ∃ out : OutPorts, exec .rxDecode s = .next (s.withResponse ⟨.ok, out⟩) ∧ out.kind = some .faultReport)

/-- R7, R262 (derived): under a well-formed configuration every motion-status payload decodes. -/
def Obligations.WellFormedConfigurationAlwaysDecodesTelemetry : Prop :=
  ∀ s : State, cfgWellFormed binary64 s.cfg = true →
    ∃ out : OutPorts, exec .tlmDec s = .next (s.withResponse ⟨.ok, out⟩)
end

