-- ==== Sys2Proof/Laws/Rounding.lean ====
section
/-! SUPPORT. The rounding of `binary64`: it is monotone, it keeps representable values, and it moves a whole number of
units by at most one part in 2^53. These are the facts behind the bound of spec/40_fixed_point_codec.md R105 and the
monotonicity of R110. -/

namespace Sys2Proof.Machine

/-! ## Rounding to a natural number -/

/-- `roundTiesEven n d` is at most `m` exactly when `n / d` is below `m + 1/2`, or equal to it with `m` even. -/
theorem roundTiesEven_le_iff {n d m : Nat} (hd : 0 < d) :
    roundTiesEven n d ≤ m ↔ 2 * n < (2 * m + 1) * d ∨ (2 * n = (2 * m + 1) * d ∧ m % 2 = 0) := by
  have hn := Nat.div_add_mod n d
  have hr := Nat.mod_lt n hd
  generalize hq : n / d = q at hn
  generalize n % d = r at hn hr
  have key : roundTiesEven n d = if 2 * r < d then q else if d < 2 * r then q + 1 else q + q % 2 := by
    have h1 : n % d = r := by
      rw [← hn, Nat.mul_add_mod, Nat.mod_eq_of_lt hr]
    simp only [roundTiesEven, h1, hq]
  rw [key]
  subst hn
  rcases Nat.lt_trichotomy q m with h | h | h
  · obtain ⟨e, rfl⟩ := Nat.exists_eq_add_of_lt h
    have : (2 * (q + e + 1) + 1) * d = 2 * (d * q) + 2 * (d * e) + 3 * d := by ring
    rw [this]
    have := Nat.zero_le (d * e)
    constructor
    · intro; left; omega
    · intro; split <;> (try split) <;> omega
  · subst h
    have : (2 * q + 1) * d = 2 * (d * q) + d := by ring
    rw [this]
    split
    · constructor
      · intro; left; omega
      · intro; omega
    · split
      · constructor <;> intro <;> omega
      · constructor <;> intro <;> omega
  · obtain ⟨e, rfl⟩ := Nat.exists_eq_add_of_lt h
    have : d * (m + e + 1) = m * d + d * e + d := by ring
    have h2 : (2 * m + 1) * d = 2 * (m * d) + d := by ring
    rw [h2, this]
    have := Nat.zero_le (d * e)
    constructor
    · intro h'; exfalso; revert h'; split <;> (try split) <;> omega
    · intro h'; exfalso; omega

/-- Rounding is monotone in the quotient. -/
theorem roundTiesEven_mono {n₁ d₁ n₂ d₂ : Nat} (h₁ : 0 < d₁) (h₂ : 0 < d₂) (h : n₁ * d₂ ≤ n₂ * d₁) :
    roundTiesEven n₁ d₁ ≤ roundTiesEven n₂ d₂ := by
  have hle := (roundTiesEven_le_iff (n := n₂) (m := roundTiesEven n₂ d₂) h₂).1 le_rfl
  generalize roundTiesEven n₂ d₂ = m at *
  rw [roundTiesEven_le_iff h₁]
  have e₁ : 2 * (n₁ * d₂) = 2 * n₁ * d₂ := by ring
  have e₂ : 2 * (n₂ * d₁) = 2 * n₂ * d₁ := by ring
  have hc : (2 * m + 1) * d₂ * d₁ = (2 * m + 1) * d₁ * d₂ := by ring
  rcases hle with hlt | ⟨heq, hm⟩
  · left
    have : 2 * n₂ * d₁ < (2 * m + 1) * d₂ * d₁ := Nat.mul_lt_mul_of_pos_right hlt h₁
    have : 2 * n₁ * d₂ < (2 * m + 1) * d₁ * d₂ := by omega
    exact Nat.lt_of_mul_lt_mul_right this
  · have : 2 * n₂ * d₁ = (2 * m + 1) * d₂ * d₁ := by rw [heq]
    have : 2 * n₁ * d₂ ≤ (2 * m + 1) * d₁ * d₂ := by omega
    have : 2 * n₁ ≤ (2 * m + 1) * d₁ := Nat.le_of_mul_le_mul_right this h₂
    omega

/-- A whole quotient is kept. -/
theorem roundTiesEven_mul (m : Nat) {d : Nat} (hd : 0 < d) : roundTiesEven (m * d) d = m := by
  simp only [roundTiesEven, Nat.mul_mod_left, Nat.mul_div_cancel _ hd]
  simp [hd]

/-- Rounding moves the quotient by at most one half. -/
theorem roundTiesEven_error (n d : Nat) (hd : 0 < d) : 2 * (roundTiesEven n d * d) ≤ 2 * n + d := by
  have hn := Nat.div_add_mod n d
  have hr := Nat.mod_lt n hd
  have e1 : n / d * d = d * (n / d) := by ring
  have e2 : (n / d + 1) * d = d * (n / d) + d := by ring
  unfold roundTiesEven
  split
  · omega
  · split
    · omega
    · have : n / d % 2 = 0 ∨ n / d % 2 = 1 := by omega
      rcases this with h | h
      · rw [h, Nat.add_zero]; omega
      · rw [h]; omega

/-! ## The exponent -/

theorem fpExcess_mono {a b : Nat} (h : a ≤ b) : fpExcess a ≤ fpExcess b := by
  have : a.log2 ≤ b.log2 := by
    rcases Nat.eq_zero_or_pos a with rfl | ha
    · simp
    · exact (Nat.le_log2 (by omega)).2 (le_trans (Nat.log2_self_le (by omega)) h)
  unfold fpExcess; omega

/-- A whole number of units fits in 53 bits after its excess is dropped. -/
theorem lt_two_pow_fpExcess (q : Nat) : q < 2 ^ 53 * 2 ^ fpExcess q := by
  rcases Nat.eq_zero_or_pos q with rfl | hq
  · positivity
  · rw [← pow_add]
    refine lt_of_lt_of_le Nat.lt_log2_self (Nat.pow_le_pow_right (by omega) ?_)
    unfold fpExcess; omega

/-- Where an excess is dropped, 53 significant bits remain. -/
theorem two_pow_fpExcess_le {q : Nat} (h : 0 < fpExcess q) : 2 ^ 52 * 2 ^ fpExcess q ≤ q := by
  have hq : q ≠ 0 := by rintro rfl; simp [fpExcess] at h
  rw [← pow_add]
  refine le_trans (Nat.pow_le_pow_right (by omega) ?_) (Nat.log2_self_le hq)
  unfold fpExcess at *; omega

/-- The significand the rounding keeps, before it is put beside the exponent. -/
def fpSignificand (n d : Nat) : Nat := roundTiesEven n (d * 2 ^ fpExcess (n / d))

theorem fpRound_eq (n d : Nat) :
    fpRound n d = min fpInfMag (fpExcess (n / d) * 2 ^ 52 + fpSignificand n d) := rfl

theorem fpSignificand_le {n d : Nat} (hd : 0 < d) : fpSignificand n d ≤ 2 ^ 53 := by
  unfold fpSignificand
  rw [roundTiesEven_le_iff (by positivity)]
  left
  have h := lt_two_pow_fpExcess (n / d)
  have h' : n < 2 ^ 53 * 2 ^ fpExcess (n / d) * d := (Nat.div_lt_iff_lt_mul hd).1 h
  have : (2 * 2 ^ 53 + 1) * (d * 2 ^ fpExcess (n / d)) =
      2 * (2 ^ 53 * 2 ^ fpExcess (n / d) * d) + d * 2 ^ fpExcess (n / d) := by ring
  omega

theorem le_fpSignificand {n d : Nat} (hd : 0 < d) (h : 0 < fpExcess (n / d)) : 2 ^ 52 ≤ fpSignificand n d := by
  have h1 := two_pow_fpExcess_le h
  have h2 : 2 ^ 52 * 2 ^ fpExcess (n / d) * d ≤ n := (Nat.le_div_iff_mul_le hd).1 h1
  have h3 := roundTiesEven_mono (n₁ := 2 ^ 52 * (d * 2 ^ fpExcess (n / d))) (d₁ := d * 2 ^ fpExcess (n / d))
    (n₂ := n) (d₂ := d * 2 ^ fpExcess (n / d)) (by positivity) (by positivity)
    (Nat.mul_le_mul_right _ (le_trans (le_of_eq (by ring)) h2))
  rwa [roundTiesEven_mul _ (by positivity)] at h3

/-- Rounding to binary64 is monotone in the exact value. -/
theorem fpRound_mono {n₁ d₁ n₂ d₂ : Nat} (h₁ : 0 < d₁) (h₂ : 0 < d₂) (h : n₁ * d₂ ≤ n₂ * d₁) :
    fpRound n₁ d₁ ≤ fpRound n₂ d₂ := by
  rw [fpRound_eq, fpRound_eq]
  refine min_le_min le_rfl ?_
  have hq : n₁ / d₁ ≤ n₂ / d₂ := by
    rw [Nat.le_div_iff_mul_le h₂]
    refine Nat.le_of_mul_le_mul_right (c := d₁) ?_ h₁
    calc n₁ / d₁ * d₂ * d₁ = n₁ / d₁ * d₁ * d₂ := by ring
      _ ≤ n₁ * d₂ := Nat.mul_le_mul_right _ (Nat.div_mul_le_self _ _)
      _ ≤ n₂ * d₁ := h
  rcases Nat.lt_or_eq_of_le (fpExcess_mono hq) with hk | hk
  · have a := fpSignificand_le (n := n₁) h₁
    have b := le_fpSignificand (n := n₂) h₂ (by omega)
    omega
  · have : fpSignificand n₁ d₁ ≤ fpSignificand n₂ d₂ := by
      unfold fpSignificand
      rw [hk]
      refine roundTiesEven_mono (by positivity) (by positivity) ?_
      calc n₁ * (d₂ * 2 ^ fpExcess (n₂ / d₂)) = n₁ * d₂ * 2 ^ fpExcess (n₂ / d₂) := by ring
        _ ≤ n₂ * d₁ * 2 ^ fpExcess (n₂ / d₂) := Nat.mul_le_mul_right _ h
        _ = n₂ * (d₁ * 2 ^ fpExcess (n₂ / d₂)) := by ring
    rw [hk]; omega

theorem fpRound_le_inf (n d : Nat) : fpRound n d ≤ fpInfMag := min_le_left _ _

@[simp] theorem fpRound_zero (d : Nat) : fpRound 0 d = 0 := by
  simp [fpRound, fpExcess, roundTiesEven]

/-! ## Units -/

/-- A significand of at most 53 bits put beside an exponent, read back as units. -/
theorem fpUnitsOfMag_compose {k m : Nat} (hm : m ≤ 2 ^ 53) (hk : k = 0 ∨ 2 ^ 52 ≤ m) :
    fpUnitsOfMag (k * 2 ^ 52 + m) = m * 2 ^ k := by
  unfold fpUnitsOfMag
  rcases Nat.lt_or_ge m (2 ^ 52) with h | h
  · have : k = 0 := by omega
    subst this
    rw [Nat.zero_mul, Nat.zero_add, if_pos h, pow_zero, Nat.mul_one]
  · rw [if_neg (by omega)]
    rcases Nat.lt_or_eq_of_le hm with h' | h'
    · have e1 : (k * 2 ^ 52 + m) % 2 ^ 52 = m - 2 ^ 52 := by omega
      have e2 : (k * 2 ^ 52 + m) / 2 ^ 52 - 1 = k := by omega
      have e3 : 2 ^ 52 + (m - 2 ^ 52) = m := by omega
      rw [e1, e2, e3]
    · rw [h']
      have e1 : (k * 2 ^ 52 + 2 ^ 53) % 2 ^ 52 = 0 := by omega
      have e2 : (k * 2 ^ 52 + 2 ^ 53) / 2 ^ 52 - 1 = k + 1 := by omega
      rw [e1, e2, pow_succ]; ring

/-- The units of a finite rounded value: the significand scaled by the exponent. -/
theorem fpUnitsOfMag_fpRound {n d : Nat} (hd : 0 < d) (hf : fpRound n d < fpInfMag) :
    fpUnitsOfMag (fpRound n d) = fpSignificand n d * 2 ^ fpExcess (n / d) := by
  have : fpRound n d = fpExcess (n / d) * 2 ^ 52 + fpSignificand n d := by
    rw [fpRound_eq] at *; omega
  rw [this]
  refine fpUnitsOfMag_compose (fpSignificand_le hd) ?_
  rcases Nat.eq_zero_or_pos (fpExcess (n / d)) with h | h
  · exact .inl h
  · exact .inr (le_fpSignificand hd h)

/-- Units are strictly monotone in the magnitude bits. -/
theorem fpUnitsOfMag_lt {a b : Nat} (h : a < b) : fpUnitsOfMag a < fpUnitsOfMag b := by
  unfold fpUnitsOfMag
  split
  · rename_i ha
    split
    · exact h
    · calc a < 2 ^ 52 + b % 2 ^ 52 := by omega
        _ ≤ _ := Nat.le_mul_of_pos_right _ (by positivity)
  · rename_i ha
    rw [if_neg (by omega)]
    have hq : a / 2 ^ 52 ≤ b / 2 ^ 52 := Nat.div_le_div_right h.le
    rcases Nat.lt_or_eq_of_le hq with hlt | heq
    · calc (2 ^ 52 + a % 2 ^ 52) * 2 ^ (a / 2 ^ 52 - 1) < 2 ^ 53 * 2 ^ (a / 2 ^ 52 - 1) := by
            refine Nat.mul_lt_mul_of_pos_right ?_ (by positivity)
            have := Nat.mod_lt a (show 0 < 2 ^ 52 by positivity); omega
        _ = 2 ^ 52 * 2 ^ (a / 2 ^ 52 - 1 + 1) := by rw [pow_succ]; ring
        _ ≤ 2 ^ 52 * 2 ^ (b / 2 ^ 52 - 1) :=
            Nat.mul_le_mul_left _ (Nat.pow_le_pow_right (by omega) (by omega))
        _ ≤ _ := Nat.mul_le_mul_right _ (by omega)
    · rw [heq]
      refine Nat.mul_lt_mul_of_pos_right ?_ (by positivity)
      omega

theorem fpUnitsOfMag_le {a b : Nat} (h : a ≤ b) : fpUnitsOfMag a ≤ fpUnitsOfMag b := by
  rcases Nat.lt_or_eq_of_le h with h | rfl
  · exact (fpUnitsOfMag_lt h).le
  · exact le_rfl

theorem fpUnitsOfMag_le_iff {a b : Nat} : fpUnitsOfMag a ≤ fpUnitsOfMag b ↔ a ≤ b :=
  ⟨fun h => by by_contra hc; exact absurd (fpUnitsOfMag_lt (by omega : b < a)) (by omega), fpUnitsOfMag_le⟩

@[simp] theorem fpUnitsOfMag_zero : fpUnitsOfMag 0 = 0 := by simp [fpUnitsOfMag]

/-- A whole number of units with at most 53 significant bits is kept by rounding. -/
theorem fpUnitsOfMag_fpRound_of_bits {c e : Nat} (hc : c < 2 ^ 53) (hf : fpRound (c * 2 ^ e) 1 < fpInfMag) :
    fpUnitsOfMag (fpRound (c * 2 ^ e) 1) = c * 2 ^ e := by
  rw [fpUnitsOfMag_fpRound (by omega) hf]
  unfold fpSignificand
  rw [Nat.div_one, Nat.one_mul]
  have hk : fpExcess (c * 2 ^ e) ≤ e := by
    by_contra hc'
    have h1 := two_pow_fpExcess_le (q := c * 2 ^ e) (by omega)
    have h2 : 2 ^ (e + 1) ≤ 2 ^ fpExcess (c * 2 ^ e) := Nat.pow_le_pow_right (by omega) (by omega)
    have h3 : c * 2 ^ e < 2 ^ 53 * 2 ^ e := Nat.mul_lt_mul_of_pos_right hc (by positivity)
    have h4 : 2 ^ 52 * 2 ^ (e + 1) ≤ 2 ^ 52 * 2 ^ fpExcess (c * 2 ^ e) := Nat.mul_le_mul_left _ h2
    rw [pow_succ] at h4
    omega
  have hsplit : c * 2 ^ e = c * 2 ^ (e - fpExcess (c * 2 ^ e)) * 2 ^ fpExcess (c * 2 ^ e) := by
    rw [mul_assoc, ← pow_add, Nat.sub_add_cancel hk]
  generalize fpExcess (c * 2 ^ e) = k at *
  rw [hsplit, roundTiesEven_mul _ (by positivity)]

/-- Rounding a whole number of units adds at most one part in 2^53. -/
theorem fpUnitsOfMag_fpRound_error (n : Nat) (hf : fpRound n 1 < fpInfMag) :
    2 ^ 53 * fpUnitsOfMag (fpRound n 1) ≤ (2 ^ 53 + 1) * n := by
  rw [fpUnitsOfMag_fpRound (by omega) hf]
  unfold fpSignificand
  rw [Nat.div_one, Nat.one_mul]
  rcases Nat.eq_zero_or_pos (fpExcess n) with h | h
  · rw [h]
    have := roundTiesEven_mul n (d := 1) (by omega)
    simp only [Nat.mul_one, pow_zero] at *
    rw [this]; omega
  · have h1 := two_pow_fpExcess_le h
    have h2 := roundTiesEven_error n (2 ^ fpExcess n) (by positivity)
    generalize roundTiesEven n (2 ^ fpExcess n) * 2 ^ fpExcess n = a at *
    omega

/-- A representable whole number of units bounds the rounding of every smaller exact value. -/
theorem fpRound_le_of_le {n d c e : Nat} (hd : 0 < d) (h : n ≤ c * 2 ^ e * d) :
    fpRound n d ≤ fpRound (c * 2 ^ e) 1 :=
  fpRound_mono hd (by omega) (by omega)

/-- Rounding does not see a common factor of numerator and denominator. -/
theorem fpRound_mul_right (n : Nat) {d c : Nat} (hd : 0 < d) (hc : 0 < c) : fpRound (n * c) (d * c) = fpRound n d := by
  apply le_antisymm
  · exact fpRound_mono (by positivity) hd (le_of_eq (by ring))
  · exact fpRound_mono hd (by positivity) (le_of_eq (by ring))

set_option exponentiation.threshold 4096 in
/-- A value of 53 significant bits with an exponent in the format does not overflow. -/
theorem fpRound_lt_inf {c e : Nat} (hc : c < 2 ^ 53) (he : e ≤ 2045) : fpRound (c * 2 ^ e) 1 < fpInfMag := by
  have hle : fpRound (c * 2 ^ e) 1 ≤ fpRound ((2 ^ 53 - 1) * 2 ^ 2045) 1 := by
    refine fpRound_mono (by omega) (by omega) ?_
    rw [Nat.mul_one, Nat.mul_one]
    exact Nat.mul_le_mul (Nat.le_pred_of_lt hc) (Nat.pow_le_pow_right (n := 2) (by omega) he)
  exact lt_of_le_of_lt hle (by decide +kernel)

/-- Rounding is exact on representable values: a finite magnitude is the rounding of its own value. -/
theorem fpRound_fpUnitsOfMag {m : Nat} (h : m < fpInfMag) : fpRound (fpUnitsOfMag m) 1 = m := by
  have key : ∀ c e, c < 2 ^ 53 → fpUnitsOfMag m = c * 2 ^ e → e ≤ 2045 → fpRound (fpUnitsOfMag m) 1 = m := by
    intro c e hc he hle
    have hu := fpUnitsOfMag_fpRound_of_bits hc (fpRound_lt_inf hc hle)
    rw [← he] at hu
    have h1 := @fpUnitsOfMag_le_iff (fpRound (fpUnitsOfMag m) 1) m
    have h2 := @fpUnitsOfMag_le_iff m (fpRound (fpUnitsOfMag m) 1)
    omega
  unfold fpInfMag at h
  by_cases hm : m < 2 ^ 52
  · exact key m 0 (by omega) (by rw [fpUnitsOfMag, if_pos hm, pow_zero, Nat.mul_one]) (by omega)
  · exact key (2 ^ 52 + m % 2 ^ 52) (m / 2 ^ 52 - 1) (by omega) (by rw [fpUnitsOfMag, if_neg hm]) (by omega)

end Sys2Proof.Machine
end

