-- ==== Sys2Proof/Laws/Binary64.lean ====
section
/-! SUPPORT. What each operation of `binary64` gives on finite operands, in units and magnitude bits; one lemma per
operation, so that no later proof unfolds one. -/

namespace Sys2Proof.Machine

/-! ## The record -/

@[simp] theorem binary64_add : binary64.add = fpAdd := rfl
@[simp] theorem binary64_sub : binary64.sub = fpSub := rfl
@[simp] theorem binary64_mul : binary64.mul = fpMul := rfl
@[simp] theorem binary64_div : binary64.div = fpDiv := rfl
@[simp] theorem binary64_lt : binary64.lt = fpLt := rfl
@[simp] theorem binary64_gt : binary64.gt = fpGt := rfl
@[simp] theorem binary64_isNaN : binary64.isNaN = fpIsNaN := rfl
@[simp] theorem binary64_isFinite : binary64.isFinite = fpIsFinite := rfl
@[simp] theorem binary64_ofNat : binary64.ofNat = fpOfNat := rfl
@[simp] theorem binary64_floorToNat : binary64.floorToNat = fpFloorToNat := rfl

/-! ## Patterns -/

theorem fpMag_lt (x : F64) : fpMag x < 2 ^ 63 := Nat.mod_lt _ (by decide)

theorem fpMag_fpPack (neg : Bool) {m : Nat} (h : m < 2 ^ 63) : fpMag (fpPack neg m) = m := by
  unfold fpMag fpPack
  rw [BitVec.toNat_ofNat]
  cases neg <;> simp only [Bool.false_eq_true, if_true, if_false] <;> omega

theorem fpSign_fpPack (neg : Bool) {m : Nat} (h : m < 2 ^ 63) : fpSign (fpPack neg m) = neg := by
  unfold fpSign fpPack
  rw [← BitVec.testBit_toNat, BitVec.toNat_ofNat, Nat.testBit_eq_decide_div_mod_eq]
  cases neg <;> simp only [Bool.false_eq_true, if_true, if_false, decide_eq_true_eq, decide_eq_false_iff_not] <;> omega

theorem fpInfMag_lt : fpInfMag < 2 ^ 63 := by decide

theorem fpRound_lt (n d : Nat) : fpRound n d < 2 ^ 63 := lt_of_le_of_lt (fpRound_le_inf n d) fpInfMag_lt

@[simp] theorem fpMag_fpPack_fpRound (neg : Bool) (n d : Nat) : fpMag (fpPack neg (fpRound n d)) = fpRound n d :=
  fpMag_fpPack neg (fpRound_lt n d)

/-- A pattern is its sign and its magnitude bits. -/
theorem fpPack_fpSign_fpMag (x : F64) : fpPack (fpSign x) (fpMag x) = x := by
  apply BitVec.eq_of_toNat_eq
  have hx := x.isLt
  have hs : fpSign x = decide (2 ^ 63 ≤ x.toNat) := by
    unfold fpSign
    rw [BitVec.getLsbD, Nat.testBit_eq_decide_div_mod_eq]
    congr 1
    apply propext
    omega
  unfold fpPack fpMag
  rw [hs, BitVec.toNat_ofNat]
  by_cases h : 2 ^ 63 ≤ x.toNat
  · rw [decide_eq_true h, if_pos rfl]; omega
  · rw [decide_eq_false h, if_neg Bool.false_ne_true]; omega

theorem fpMag_fpNeg (x : F64) : fpMag (fpNeg x) = fpMag x := fpMag_fpPack _ (fpMag_lt x)

theorem fpSign_fpNeg (x : F64) : fpSign (fpNeg x) = !fpSign x := fpSign_fpPack _ (fpMag_lt x)

theorem fpSignedUnits_fpNeg (x : F64) : fpSignedUnits (fpNeg x) = -fpSignedUnits x := by
  unfold fpSignedUnits fpUnits
  rw [fpMag_fpNeg, fpSign_fpNeg]
  cases fpSign x <;> simp

/-! ## Finite operands -/

theorem fpIsFinite_iff {x : F64} : fpIsFinite x = true ↔ fpMag x < fpInfMag := by simp [fpIsFinite]

theorem not_nan_of_finite {x : F64} (h : fpIsFinite x = true) : fpIsNaN x = false := by
  simp [fpIsFinite, fpIsNaN] at *; omega

theorem not_inf_of_finite {x : F64} (h : fpIsFinite x = true) : fpIsInf x = false := by
  simp [fpIsFinite, fpIsInf] at *; omega

theorem fpIsFinite_fpNeg {x : F64} (h : fpIsFinite x = true) : fpIsFinite (fpNeg x) = true := by
  rw [fpIsFinite_iff] at *; rwa [fpMag_fpNeg]

/-- The sum of two finite values has the rounded magnitude of the exact sum, and the sign of the exact sum where that
is not zero. -/
theorem fpAddNumbers_finite (op : FpOp) {a b : F64} (ha : fpIsFinite a = true) (hb : fpIsFinite b = true) :
    fpMag (fpAddNumbers op a b) = fpRound (fpSignedUnits a + fpSignedUnits b).natAbs 1 ∧
    (fpSignedUnits a + fpSignedUnits b ≠ 0 →
      fpSign (fpAddNumbers op a b) = decide (fpSignedUnits a + fpSignedUnits b < 0)) := by
  unfold fpAddNumbers
  simp only [not_inf_of_finite ha, not_inf_of_finite hb, Bool.false_eq_true, if_false]
  split
  · rename_i h
    refine ⟨?_, fun hc => absurd h hc⟩
    rw [h, fpMag_fpPack _ (by decide)]
    simp
  · exact ⟨fpMag_fpPack_fpRound _ _ _, fun _ => fpSign_fpPack _ (fpRound_lt _ _)⟩

/-- `fp.add` on finite operands. -/
theorem fpAdd_finite {a b : F64} (ha : fpIsFinite a = true) (hb : fpIsFinite b = true) :
    fpMag (fpAdd a b) = fpRound (fpSignedUnits a + fpSignedUnits b).natAbs 1 ∧
    (fpSignedUnits a + fpSignedUnits b ≠ 0 →
      fpSign (fpAdd a b) = decide (fpSignedUnits a + fpSignedUnits b < 0)) := by
  unfold fpAdd
  simp only [not_nan_of_finite ha, not_nan_of_finite hb, Bool.or_self, Bool.false_eq_true, if_false]
  exact fpAddNumbers_finite .add ha hb

/-- `fp.sub` on finite operands. -/
theorem fpSub_finite {a b : F64} (ha : fpIsFinite a = true) (hb : fpIsFinite b = true) :
    fpMag (fpSub a b) = fpRound (fpSignedUnits a - fpSignedUnits b).natAbs 1 ∧
    (fpSignedUnits a - fpSignedUnits b ≠ 0 →
      fpSign (fpSub a b) = decide (fpSignedUnits a - fpSignedUnits b < 0)) := by
  unfold fpSub
  simp only [not_nan_of_finite ha, not_nan_of_finite hb, Bool.or_self, Bool.false_eq_true, if_false]
  have := fpAddNumbers_finite .sub ha (fpIsFinite_fpNeg hb)
  rwa [fpSignedUnits_fpNeg, ← sub_eq_add_neg] at this

/-- `fp.mul` on finite operands. -/
theorem fpMul_finite {a b : F64} (ha : fpIsFinite a = true) (hb : fpIsFinite b = true) :
    fpMag (fpMul a b) = fpRound (fpUnits a * fpUnits b) (2 ^ 1074) ∧ fpSign (fpMul a b) = (fpSign a != fpSign b) := by
  unfold fpMul
  simp only [not_nan_of_finite ha, not_nan_of_finite hb, not_inf_of_finite ha, not_inf_of_finite hb, Bool.or_self,
    Bool.false_eq_true, if_false]
  exact ⟨fpMag_fpPack_fpRound _ _ _, fpSign_fpPack _ (fpRound_lt _ _)⟩

/-- `fp.div` on finite operands with a divisor that is not zero. -/
theorem fpDiv_finite {a b : F64} (ha : fpIsFinite a = true) (hb : fpIsFinite b = true) (h0 : fpMag b ≠ 0) :
    fpMag (fpDiv a b) = fpRound (fpUnits a * 2 ^ 1074) (fpUnits b) ∧ fpSign (fpDiv a b) = (fpSign a != fpSign b) := by
  unfold fpDiv
  simp only [not_nan_of_finite ha, not_nan_of_finite hb, not_inf_of_finite ha, not_inf_of_finite hb, Bool.or_self,
    Bool.false_eq_true, if_false, h0]
  exact ⟨fpMag_fpPack_fpRound _ _ _, fpSign_fpPack _ (fpRound_lt _ _)⟩

/-- `fp.ofNat` is exact below 2^53 (spec/00_scope.md R11), in units. -/
theorem fpUnits_fpOfNat {n : Nat} (h : n < 2 ^ 53) : fpUnits (fpOfNat n) = n * 2 ^ 1074 := by
  unfold fpUnits fpOfNat
  rw [fpMag_fpPack_fpRound]
  exact fpUnitsOfMag_fpRound_of_bits h (fpRound_lt_inf h (by omega))

theorem fpIsFinite_fpOfNat {n : Nat} (h : n < 2 ^ 53) : fpIsFinite (fpOfNat n) = true := by
  rw [fpIsFinite_iff]
  unfold fpOfNat
  rw [fpMag_fpPack_fpRound]
  exact fpRound_lt_inf h (by omega)

theorem fpSign_fpOfNat (n : Nat) : fpSign (fpOfNat n) = false := fpSign_fpPack _ (fpRound_lt _ _)

/-- A finite value is zero in units only where its magnitude bits are zero. -/
theorem fpUnits_eq_zero {x : F64} : fpUnits x = 0 ↔ fpMag x = 0 := by
  constructor
  · intro h
    by_contra hc
    have := fpUnitsOfMag_lt (Nat.pos_of_ne_zero hc)
    unfold fpUnits at h; omega
  · intro h; simp [fpUnits, h]

/-! ## Comparison -/

/-- On finite values the ordered comparison is the comparison of the values. -/
theorem fpKey_le_iff {a b : F64} : fpKey a ≤ fpKey b ↔ fpSignedUnits a ≤ fpSignedUnits b := by
  unfold fpKey fpSignedUnits fpUnits
  have hab := @fpUnitsOfMag_le_iff (fpMag a) (fpMag b)
  have hba := @fpUnitsOfMag_le_iff (fpMag b) (fpMag a)
  have ha := @fpUnitsOfMag_le_iff (fpMag a) 0
  have hb := @fpUnitsOfMag_le_iff (fpMag b) 0
  rw [fpUnitsOfMag_zero] at ha hb
  cases fpSign a <;> cases fpSign b <;> simp only [Bool.false_eq_true, if_true, if_false] <;> omega

theorem fpLt_iff {a b : F64} (ha : fpIsNaN a = false) (hb : fpIsNaN b = false) :
    fpLt a b = true ↔ fpKey a < fpKey b := by simp [fpLt, ha, hb]

theorem fpLt_iff_units {a b : F64} (ha : fpIsNaN a = false) (hb : fpIsNaN b = false) :
    fpLt a b = true ↔ fpSignedUnits a < fpSignedUnits b := by
  rw [fpLt_iff ha hb, ← not_le, ← not_le, fpKey_le_iff]

/-- The units of a finite difference that is not below zero are its rounded exact value. -/
theorem fpMag_fpSub_mono {a b c : F64} (ha : fpIsFinite a = true) (hb : fpIsFinite b = true)
    (hc : fpIsFinite c = true) (h1 : fpSignedUnits c ≤ fpSignedUnits a) (h2 : fpSignedUnits a ≤ fpSignedUnits b) :
    fpMag (fpSub a c) ≤ fpMag (fpSub b c) := by
  rw [(fpSub_finite ha hc).1, (fpSub_finite hb hc).1]
  exact fpRound_mono (by omega) (by omega) (by omega)

/-- Adding a larger value to a finite value gives no smaller sum: both sums are numbers and their order keys are
ordered. -/
theorem fpAdd_mono {a b c : F64} (ha : fpIsFinite a = true) (hb : fpIsFinite b = true) (hc : fpIsFinite c = true)
    (h : fpSignedUnits a ≤ fpSignedUnits b) :
    fpIsNaN (fpAdd c a) = false ∧ fpIsNaN (fpAdd c b) = false ∧ fpKey (fpAdd c a) ≤ fpKey (fpAdd c b) := by
  obtain ⟨ma, sa⟩ := fpAdd_finite hc ha
  obtain ⟨mb, sb⟩ := fpAdd_finite hc hb
  have ia := fpRound_le_inf (fpSignedUnits c + fpSignedUnits a).natAbs 1
  have ib := fpRound_le_inf (fpSignedUnits c + fpSignedUnits b).natAbs 1
  refine ⟨by simp only [fpIsNaN, ma, decide_eq_false_iff_not]; omega,
    by simp only [fpIsNaN, mb, decide_eq_false_iff_not]; omega, ?_⟩
  unfold fpKey
  rw [ma, mb]
  rcases Int.lt_trichotomy (fpSignedUnits c + fpSignedUnits a) 0 with ha0 | ha0 | ha0
  · rw [sa (by omega), decide_eq_true ha0, if_pos rfl]
    rcases Int.lt_trichotomy (fpSignedUnits c + fpSignedUnits b) 0 with hb0 | hb0 | hb0
    · rw [sb (by omega), decide_eq_true hb0, if_pos rfl]
      have := fpRound_mono (n₁ := (fpSignedUnits c + fpSignedUnits b).natAbs) (d₁ := 1)
        (n₂ := (fpSignedUnits c + fpSignedUnits a).natAbs) (d₂ := 1) (by omega) (by omega) (by omega)
      omega
    · rw [hb0, Int.natAbs_zero, fpRound_zero]; split <;> omega
    · rw [sb (by omega), decide_eq_false (by omega), if_neg Bool.false_ne_true]; omega
  · rw [ha0, Int.natAbs_zero, fpRound_zero]
    rcases Int.lt_trichotomy (fpSignedUnits c + fpSignedUnits b) 0 with hb0 | hb0 | hb0
    · omega
    · rw [hb0, Int.natAbs_zero, fpRound_zero]; split <;> split <;> omega
    · rw [sb (by omega), decide_eq_false (by omega), if_neg Bool.false_ne_true]; split <;> omega
  · rw [sa (by omega), decide_eq_false (by omega), if_neg Bool.false_ne_true,
      sb (by omega), decide_eq_false (by omega), if_neg Bool.false_ne_true]
    have := fpRound_mono (n₁ := (fpSignedUnits c + fpSignedUnits a).natAbs) (d₁ := 1)
      (n₂ := (fpSignedUnits c + fpSignedUnits b).natAbs) (d₂ := 1) (by omega) (by omega) (by omega)
    omega

/-- Adding +0 to a finite value gives that value, and +0 for -0 (R113: round to nearest). -/
theorem fpAdd_zero {c : F64} (hc : fpIsFinite c = true) :
    fpAdd c 0#64 = if c = 0x8000000000000000#64 then 0#64 else c := by
  split
  · rename_i h; subst h; decide +kernel
  · rename_i h
    have h0 : fpSignedUnits 0#64 = 0 := by decide +kernel
    have hz : fpIsFinite 0#64 = true := by decide +kernel
    obtain ⟨m, sg⟩ := fpAdd_finite hc hz
    rw [h0, Int.add_zero] at m sg
    have hm : fpMag (fpAdd c 0#64) = fpMag c := by
      rw [m, show (fpSignedUnits c).natAbs = fpUnitsOfMag (fpMag c) by
        unfold fpSignedUnits fpUnits; split <;> omega]
      exact fpRound_fpUnitsOfMag (fpIsFinite_iff.1 hc)
    rw [← fpPack_fpSign_fpMag (fpAdd c 0#64), hm]
    by_cases hu : fpMag c = 0
    · have hcz : c = 0#64 := by
        rw [← fpPack_fpSign_fpMag c, hu] at h ⊢
        revert h
        cases fpSign c <;> decide
      subst hcz; decide +kernel
    · have hs : fpSign (fpAdd c 0#64) = fpSign c := by
        have hu' : fpUnits c ≠ 0 := fun h => hu (fpUnits_eq_zero.1 h)
        rw [sg (by unfold fpSignedUnits; split <;> omega)]
        unfold fpSignedUnits
        cases fpSign c <;> simp only [Bool.false_eq_true, if_true, if_false, decide_eq_true_eq, decide_eq_false_iff_not] <;>
          omega
      rw [hs, fpPack_fpSign_fpMag]

end Sys2Proof.Machine
end

