-- ==== Sys2Proof/Laws/Codec.lean ====
section
/-! SUPPORT. The bound of spec/40_fixed_point_codec.md R105: with the binary64 numerics the floor of the scaled value
never exceeds `M = 2^bits - 1`, so `QUANT` never faults. -/

namespace Sys2Proof.Machine

/-- What a valid range gives (spec/00_scope.md R12), one fact a field. -/
structure RangeFacts (r : PhysicalRange) : Prop where
  bits      : r.bits = 8#6 ∨ r.bits = 16#6 ∨ r.bits = 32#6
  minFinite : fpIsFinite r.min = true
  maxFinite : fpIsFinite r.max = true
  ordered   : fpSignedUnits r.min < fpSignedUnits r.max
  span      : fpIsFinite (fpSub r.max r.min) = true
  scaled    : fpIsFinite (fpMul (fpSub r.max r.min) (fpOfNat (maxCode r.bits))) = true

theorem rangeFacts_of_valid {r : PhysicalRange} (h : rangeValid binary64 r = true) : RangeFacts r := by
  simp only [rangeValid, legalBits, Bool.and_eq_true, Bool.or_eq_true, beq_iff_eq, binary64_isFinite, binary64_lt,
    binary64_sub, binary64_mul, binary64_ofNat, or_assoc] at h
  obtain ⟨⟨⟨⟨⟨h1, h2⟩, h3⟩, h4⟩, h5⟩, h6⟩ := h
  exact ⟨h1, h2, h3, (fpLt_iff_units (not_nan_of_finite h2) (not_nan_of_finite h3)).1 h4, h5, h6⟩

/-- The scaled value in the binary64 operations (R103). -/
theorem quantScaled_eq (r : PhysicalRange) (x : F64) :
    quantScaled binary64 r x = fpDiv (fpMul (fpSub (clampPhysical binary64 r x) r.min) (fpOfNat (maxCode r.bits)))
      (fpSub r.max r.min) := by
  simp only [quantScaled, binary64_sub, binary64_mul, binary64_div, binary64_ofNat]

/-- The dequantized value in the binary64 operations (R106). -/
theorem dequantValue_eq (r : PhysicalRange) (u : Word32) :
    dequantValue binary64 r u = fpAdd r.min (fpDiv (fpMul (fpOfNat (clampCode r.bits u)) (fpSub r.max r.min))
      (fpOfNat (maxCode r.bits))) := by
  simp only [dequantValue, binary64_add, binary64_sub, binary64_mul, binary64_div, binary64_ofNat]

theorem maxCode_lt {r : PhysicalRange} (h : RangeFacts r) : maxCode r.bits < 2 ^ 32 := by
  rcases h.bits with h | h | h <;> rw [h] <;> decide

theorem maxCode_pos {r : PhysicalRange} (h : RangeFacts r) : 0 < maxCode r.bits := by
  rcases h.bits with h | h | h <;> rw [h] <;> decide

/-- The clamped operand is finite and lies in the range. -/
theorem clampPhysical_spec {r : PhysicalRange} (h : RangeFacts r) {x : F64} (hx : fpIsNaN x = false) :
    fpIsFinite (clampPhysical binary64 r x) = true ∧
    fpSignedUnits r.min ≤ fpSignedUnits (clampPhysical binary64 r x) ∧
    fpSignedUnits (clampPhysical binary64 r x) ≤ fpSignedUnits r.max := by
  have hmin := not_nan_of_finite h.minFinite
  have hmax := not_nan_of_finite h.maxFinite
  have ho := h.ordered
  unfold clampPhysical
  simp only [binary64_gt, binary64_lt, fpGt]
  by_cases h1 : fpLt r.max x = true
  · simp only [h1, if_true]
    exact ⟨h.maxFinite, by omega, le_rfl⟩
  · by_cases h2 : fpLt x r.min = true
    · simp only [h1, h2, if_true, Bool.false_eq_true, if_false]
      exact ⟨h.minFinite, le_rfl, by omega⟩
    · simp only [h1, h2, Bool.false_eq_true, if_false]
      rw [fpLt_iff hmax hx] at h1
      rw [fpLt_iff hx hmin] at h2
      refine ⟨?_, by rw [← fpKey_le_iff]; omega, by rw [← fpKey_le_iff]; omega⟩
      have ha := (fpIsFinite_iff).1 h.minFinite
      have hb := (fpIsFinite_iff).1 h.maxFinite
      rw [fpIsFinite_iff]
      unfold fpKey at h1 h2
      revert h1 h2
      cases fpSign x <;> cases fpSign r.min <;> cases fpSign r.max <;>
        simp only [Bool.false_eq_true, if_true, if_false] <;> omega

theorem fpMag_span_ne_zero {r : PhysicalRange} (h : RangeFacts r) : fpMag (fpSub r.max r.min) ≠ 0 := by
  rw [(fpSub_finite h.maxFinite h.minFinite).1]
  have ho := h.ordered
  have := fpRound_mono (n₁ := 1) (d₁ := 1) (n₂ := (fpSignedUnits r.max - fpSignedUnits r.min).natAbs) (d₂ := 1)
    (by omega) (by omega) (by omega)
  have h1 : fpRound 1 1 = 1 := by decide +kernel
  omega

/-- The product of a finite value and a code, in magnitude bits: the code scales the units. -/
theorem fpMag_fpMul_code {d : F64} (hd : fpIsFinite d = true) {m : Nat} (hm : m < 2 ^ 53) :
    fpMag (fpMul d (fpOfNat m)) = fpRound (fpUnits d * m) 1 := by
  rw [(fpMul_finite hd (fpIsFinite_fpOfNat hm)).1, fpUnits_fpOfNat hm, ← mul_assoc]
  have := fpRound_mul_right (fpUnits d * m) (d := 1) (c := 2 ^ 1074) (by omega) (by positivity)
  rwa [Nat.one_mul] at this

set_option exponentiation.threshold 4096 in
/-- The bound of R105. -/
theorem quantScaled_le {r : PhysicalRange} (h : RangeFacts r) {x : F64} (hx : fpIsNaN x = false) :
    fpFloorToNat (quantScaled binary64 r x) ≤ maxCode r.bits := by
  obtain ⟨hc, hlo, hhi⟩ := clampPhysical_spec h hx
  have hM := maxCode_lt h
  have hM53 : maxCode r.bits < 2 ^ 53 := by omega
  have hs0 := fpMag_span_ne_zero h
  have hds : fpMag (fpSub (clampPhysical binary64 r x) r.min) ≤ fpMag (fpSub r.max r.min) :=
    fpMag_fpSub_mono hc h.maxFinite h.minFinite hlo hhi
  have hdf : fpIsFinite (fpSub (clampPhysical binary64 r x) r.min) = true :=
    fpIsFinite_iff.2 (lt_of_le_of_lt hds (fpIsFinite_iff.1 h.span))
  have hdu : fpUnits (fpSub (clampPhysical binary64 r x) r.min) ≤ fpUnits (fpSub r.max r.min) := fpUnitsOfMag_le hds
  have hscaled := fpIsFinite_iff.1 h.scaled
  rw [fpMag_fpMul_code h.span hM53] at hscaled
  unfold quantScaled fpFloorToNat
  simp only [binary64_sub, binary64_mul, binary64_div, binary64_ofNat]
  generalize fpSub (clampPhysical binary64 r x) r.min = d at *
  have hsf := h.span
  generalize fpSub r.max r.min = s at *
  generalize maxCode r.bits = M at *
  have hpm := fpMag_fpMul_code hdf hM53
  have hple : fpRound (fpUnits d * M) 1 ≤ fpRound (fpUnits s * M) 1 :=
    fpRound_mono (by omega) (by omega) (by simpa using Nat.mul_le_mul_right M hdu)
  have hpf : fpIsFinite (fpMul d (fpOfNat M)) = true := fpIsFinite_iff.2 (by omega)
  have hperr := fpUnitsOfMag_fpRound_error (fpUnits d * M) (by omega)
  have hsu : 0 < fpUnits s := Nat.pos_of_ne_zero (fun h0 => hs0 (fpUnits_eq_zero.1 h0))
  -- the exact quotient is at most M + 1/2
  have hP : 2 * fpUnits (fpMul d (fpOfNat M)) ≤ (2 * M + 1) * fpUnits s := by
    have hp : fpUnits (fpMul d (fpOfNat M)) = fpUnitsOfMag (fpRound (fpUnits d * M) 1) := by
      unfold fpUnits; rw [hpm]; rfl
    rw [hp]
    have hDM : fpUnits d * M ≤ fpUnits s * M := Nat.mul_le_mul_right M hdu
    have hSM : 2 * (fpUnits s * M) ≤ 2 ^ 53 * fpUnits s := by
      calc 2 * (fpUnits s * M) = 2 * M * fpUnits s := by ring
        _ ≤ 2 ^ 53 * fpUnits s := Nat.mul_le_mul_right _ (by omega)
    have e : (2 * M + 1) * fpUnits s = 2 * (fpUnits s * M) + fpUnits s := by ring
    rw [e]
    generalize fpUnitsOfMag (fpRound (fpUnits d * M) 1) = P at *
    generalize fpUnits d * M = DM at *
    generalize fpUnits s * M = SM at *
    omega
  have ht : fpMag (fpDiv (fpMul d (fpOfNat M)) s) ≤ fpRound ((2 * M + 1) * 2 ^ 1073) 1 := by
    rw [(fpDiv_finite hpf hsf hs0).1]
    refine fpRound_le_of_le hsu ?_
    calc fpUnits (fpMul d (fpOfNat M)) * 2 ^ 1074 = 2 * fpUnits (fpMul d (fpOfNat M)) * 2 ^ 1073 := by
          rw [pow_succ 2 1073]; ring
      _ ≤ (2 * M + 1) * fpUnits s * 2 ^ 1073 := Nat.mul_le_mul_right _ hP
      _ = (2 * M + 1) * 2 ^ 1073 * fpUnits s := by ring
  have hh := fpUnitsOfMag_fpRound_of_bits (c := 2 * M + 1) (e := 1073) (by omega) (fpRound_lt_inf (by omega) (by omega))
  have hu : fpUnits (fpDiv (fpMul d (fpOfNat M)) s) ≤ (2 * M + 1) * 2 ^ 1073 := hh ▸ fpUnitsOfMag_le ht
  rw [← Nat.lt_succ_iff, Nat.div_lt_iff_lt_mul (by positivity)]
  refine lt_of_le_of_lt hu ?_
  have e : (M + 1) * 2 ^ 1074 = (2 * M + 2) * 2 ^ 1073 := by rw [pow_succ 2 1073]; ring
  rw [Nat.succ_eq_add_one, e]
  exact Nat.mul_lt_mul_of_pos_right (by omega) (by positivity)

/-- The difference to the minimum, scaled by `M` and divided by the span, grows with the clamped operand. -/
theorem fpFloorToNat_scale_mono {r : PhysicalRange} (h : RangeFacts r) {d e : F64} (hd : fpIsFinite d = true)
    (he : fpIsFinite e = true) (hde : fpMag d ≤ fpMag e) (hes : fpMag e ≤ fpMag (fpSub r.max r.min)) :
    fpFloorToNat (fpDiv (fpMul d (fpOfNat (maxCode r.bits))) (fpSub r.max r.min)) ≤
      fpFloorToNat (fpDiv (fpMul e (fpOfNat (maxCode r.bits))) (fpSub r.max r.min)) := by
  have hM53 : maxCode r.bits < 2 ^ 53 := by have := maxCode_lt h; omega
  have hs0 := fpMag_span_ne_zero h
  have hscaled := fpIsFinite_iff.1 h.scaled
  rw [fpMag_fpMul_code h.span hM53] at hscaled
  have hdm := fpMag_fpMul_code hd hM53
  have hem := fpMag_fpMul_code he hM53
  have hdeu : fpUnits d ≤ fpUnits e := fpUnitsOfMag_le hde
  have hesu : fpUnits e ≤ fpUnits (fpSub r.max r.min) := fpUnitsOfMag_le hes
  have h1 : fpRound (fpUnits d * maxCode r.bits) 1 ≤ fpRound (fpUnits e * maxCode r.bits) 1 :=
    fpRound_mono (by omega) (by omega) (by simpa using Nat.mul_le_mul_right _ hdeu)
  have h2 : fpRound (fpUnits e * maxCode r.bits) 1 ≤ fpRound (fpUnits (fpSub r.max r.min) * maxCode r.bits) 1 :=
    fpRound_mono (by omega) (by omega) (by simpa using Nat.mul_le_mul_right _ hesu)
  have hdf : fpIsFinite (fpMul d (fpOfNat (maxCode r.bits))) = true := fpIsFinite_iff.2 (by omega)
  have hef : fpIsFinite (fpMul e (fpOfNat (maxCode r.bits))) = true := fpIsFinite_iff.2 (by omega)
  have hsu : 0 < fpUnits (fpSub r.max r.min) := Nat.pos_of_ne_zero (fun h0 => hs0 (fpUnits_eq_zero.1 h0))
  unfold fpFloorToNat
  apply Nat.div_le_div_right
  unfold fpUnits at hsu ⊢
  rw [(fpDiv_finite hdf h.span hs0).1, (fpDiv_finite hef h.span hs0).1]
  refine fpUnitsOfMag_le (fpRound_mono hsu hsu ?_)
  refine Nat.mul_le_mul_right _ (Nat.mul_le_mul_right _ (fpUnitsOfMag_le ?_))
  omega

/-- The clamp keeps the order of its operands. -/
theorem clampPhysical_mono {r : PhysicalRange} (h : RangeFacts r) {x y : F64} (hx : fpIsNaN x = false)
    (hy : fpIsNaN y = false) (hxy : fpKey x ≤ fpKey y) :
    fpKey (clampPhysical binary64 r x) ≤ fpKey (clampPhysical binary64 r y) := by
  have hmin := not_nan_of_finite h.minFinite
  have hmax := not_nan_of_finite h.maxFinite
  have ho : fpKey r.min < fpKey r.max := by
    have := h.ordered
    rw [← not_le, fpKey_le_iff]; omega
  unfold clampPhysical
  simp only [binary64_gt, binary64_lt, fpGt, fpLt_iff hmax hx, fpLt_iff hmax hy, fpLt_iff hx hmin, fpLt_iff hy hmin]
  split <;> split <;> first | omega | (split <;> first | omega | (split <;> omega))

/-- The scaled value of `QUANT` grows with its operand, floored (spec/40_fixed_point_codec.md R110). -/
theorem quantScaled_mono {r : PhysicalRange} (h : RangeFacts r) {x y : F64} (hx : fpIsNaN x = false)
    (hy : fpIsNaN y = false) (hxy : fpKey x ≤ fpKey y) :
    fpFloorToNat (quantScaled binary64 r x) ≤ fpFloorToNat (quantScaled binary64 r y) := by
  obtain ⟨hcx, hlx, hhx⟩ := clampPhysical_spec h hx
  obtain ⟨hcy, hly, hhy⟩ := clampPhysical_spec h hy
  have hk := fpKey_le_iff.1 (clampPhysical_mono h hx hy hxy)
  have h1 := fpMag_fpSub_mono hcx hcy h.minFinite hlx hk
  have h2 := fpMag_fpSub_mono hcy h.maxFinite h.minFinite hly hhy
  have hs := fpIsFinite_iff.1 h.span
  have hfx : fpIsFinite (fpSub (clampPhysical binary64 r x) r.min) = true := fpIsFinite_iff.2 (by omega)
  have hfy : fpIsFinite (fpSub (clampPhysical binary64 r y) r.min) = true := fpIsFinite_iff.2 (by omega)
  exact fpFloorToNat_scale_mono h hfx hfy h1 h2

theorem clampCode_le (bits : BitVec 6) (u : Word32) : clampCode bits u ≤ maxCode bits := by
  unfold clampCode; split <;> omega

theorem clampCode_mono (bits : BitVec 6) {u v : Word32} (h : u.toNat ≤ v.toNat) :
    clampCode bits u ≤ clampCode bits v := by
  unfold clampCode; split <;> split <;> omega

set_option exponentiation.threshold 4096 in
/-- The value of a clamped code above the minimum: finite, not below zero, and larger for a larger code. -/
theorem scaledCode_spec {r : PhysicalRange} (h : RangeFacts r) {m n : Nat} (hmn : m ≤ n) (hn : n ≤ maxCode r.bits) :
    fpIsFinite (fpDiv (fpMul (fpOfNat m) (fpSub r.max r.min)) (fpOfNat (maxCode r.bits))) = true ∧
    fpSignedUnits (fpDiv (fpMul (fpOfNat m) (fpSub r.max r.min)) (fpOfNat (maxCode r.bits))) ≤
      fpSignedUnits (fpDiv (fpMul (fpOfNat n) (fpSub r.max r.min)) (fpOfNat (maxCode r.bits))) := by
  have hM := maxCode_lt h
  have hM0 := maxCode_pos h
  have hs0 := fpMag_span_ne_zero h
  have hspan := fpIsFinite_iff.1 h.span
  have hscaled := fpIsFinite_iff.1 h.scaled
  rw [fpMag_fpMul_code h.span (by omega)] at hscaled
  have hsg : fpSign (fpSub r.max r.min) = false := by
    have := h.ordered
    rw [(fpSub_finite h.maxFinite h.minFinite).2 (by omega)]
    exact decide_eq_false (by omega)
  have hsf := h.span
  generalize fpSub r.max r.min = s at *
  generalize maxCode r.bits = M at *
  have hMf := fpIsFinite_fpOfNat (n := M) (by omega)
  have hMu := fpUnits_fpOfNat (n := M) (by omega)
  have hM0' : fpMag (fpOfNat M) ≠ 0 := fun hc => by
    have := fpUnits_eq_zero.2 hc
    rw [hMu] at this
    rcases Nat.mul_eq_zero.1 this with hz | hz
    · omega
    · exact absurd hz (by positivity)
  have hp : ∀ k, k ≤ M → fpMag (fpMul (fpOfNat k) s) = fpRound (fpUnits s * k) 1 := by
    intro k hk
    rw [(fpMul_finite (fpIsFinite_fpOfNat (by omega)) hsf).1, fpUnits_fpOfNat (by omega)]
    rw [show k * 2 ^ 1074 * fpUnits s = fpUnits s * k * 2 ^ 1074 by ring]
    have := fpRound_mul_right (fpUnits s * k) (d := 1) (c := 2 ^ 1074) (by omega) (by positivity)
    rwa [Nat.one_mul] at this
  have hle : ∀ k l, k ≤ l → fpRound (fpUnits s * k) 1 ≤ fpRound (fpUnits s * l) 1 := fun k l hkl =>
    fpRound_mono (by omega) (by omega) (by simpa using Nat.mul_le_mul_left _ hkl)
  have hf : ∀ k, k ≤ M → fpIsFinite (fpMul (fpOfNat k) s) = true := fun k hk => by
    rw [fpIsFinite_iff, hp k hk]; have := hle k M hk; omega
  have hq : ∀ k, k ≤ M → fpMag (fpDiv (fpMul (fpOfNat k) s) (fpOfNat M)) =
      fpRound (fpUnits (fpMul (fpOfNat k) s)) M ∧ fpSign (fpDiv (fpMul (fpOfNat k) s) (fpOfNat M)) = false := by
    intro k hk
    obtain ⟨h1, h2⟩ := fpDiv_finite (hf k hk) hMf hM0'
    rw [h1, h2, hMu, (fpMul_finite (fpIsFinite_fpOfNat (n := k) (by omega)) hsf).2, fpSign_fpOfNat, fpSign_fpOfNat, hsg]
    exact ⟨fpRound_mul_right _ hM0 (by positivity), rfl⟩
  have hup : fpUnits (fpMul (fpOfNat m) s) ≤ fpUnits (fpMul (fpOfNat n) s) := by
    apply fpUnitsOfMag_le
    rw [hp m (by omega), hp n hn]
    exact hle m n hmn
  constructor
  · rw [fpIsFinite_iff, (hq m (by omega)).1]
    have hm := fpIsFinite_iff.1 (hf m (by omega))
    have := fpRound_mono (n₁ := fpUnits (fpMul (fpOfNat m) s)) (d₁ := M) (n₂ := fpUnits (fpMul (fpOfNat m) s)) (d₂ := 1)
      hM0 (by omega) (Nat.mul_le_mul_left _ hM0)
    have he := fpRound_fpUnitsOfMag hm
    unfold fpUnits at *
    omega
  · unfold fpSignedUnits
    rw [(hq m (by omega)).2, (hq n hn).2, if_neg Bool.false_ne_true, if_neg Bool.false_ne_true]
    apply Int.ofNat_le.2
    apply fpUnitsOfMag_le
    rw [(hq m (by omega)).1, (hq n hn).1]
    exact fpRound_mono hM0 hM0 (Nat.mul_le_mul_right _ hup)

/-- Every code `QUANT` computes fits its width. -/
theorem quantize_le {r : PhysicalRange} {x : F64} {n : Nat} (h : quantize binary64 r x = .ok n) :
    n ≤ maxCode r.bits := by
  unfold quantize at h
  split at h
  · cases h
  · rename_i hv
    split at h
    · cases h
    · rename_i hx
      simp only [binary64_floorToNat, Except.ok.injEq] at h
      rw [← h]
      exact quantScaled_le (rangeFacts_of_valid (by simpa using hv)) (by simpa using hx)

end Sys2Proof.Machine
end

