-- ==== Sys2Proof/Laws/Decode.lean ====
section
/-! SUPPORT. The decoder, the encoder and the list of assigned selectors agree. -/

namespace Sys2Proof

/-- Every encoded operation is an assigned selector. -/
theorem selectorWf_encode (i : Instr) : selectorWf (encode i) = true := by cases i <;> decide

/-- Two operations with one selector are one operation: no two rows of the table overlap. -/
theorem encode_injective {i j : Instr} (h : encode i = encode j) : i = j := by
  revert h
  cases i <;> cases j <;> decide

end Sys2Proof
end

