-- ==== Sys2Proof/Laws/Frame.lean ====
section
/-! SUPPORT. Byte orders, header words and buffer reads: each packing is undone by its unpacking, and the reads of a
buffer of the right length are in range (spec/20_memory.md R50). -/

namespace Sys2Proof.Machine

/-! ## Byte orders -/

@[simp] theorem be32_bytesOfBe32 (w : Word32) : be32 (bytesOfBe32 w) = w := by
  unfold be32 bytesOfBe32
  apply BitVec.eq_of_getElem_eq
  intro i hi
  simp only [BitVec.getElem_append, BitVec.getElem_extractLsb']
  rcases Nat.lt_or_ge i 8 with h | h
  · simp [h, BitVec.getLsbD_eq_getElem hi]
  rcases Nat.lt_or_ge i 16 with h2 | h2
  · simp [show ¬ i < 8 by omega, show i - 8 < 8 by omega, show 8 + (i - 8) = i by omega, BitVec.getLsbD_eq_getElem hi]
  rcases Nat.lt_or_ge i 24 with h3 | h3
  · simp [show ¬ i < 8 by omega, show ¬ i - 8 < 8 by omega, show i - 8 - 8 < 8 by omega,
      show 16 + (i - 8 - 8) = i by omega, BitVec.getLsbD_eq_getElem hi]
  · simp [show ¬ i < 8 by omega, show ¬ i - 8 < 8 by omega, show ¬ i - 8 - 8 < 8 by omega,
      show 24 + (i - 8 - 8 - 8) = i by omega, BitVec.getLsbD_eq_getElem hi]

@[simp] theorem le32_bytesOfLe32 (w : Word32) : le32 (bytesOfLe32 w) = w := be32_bytesOfBe32 w

/-- A field of an append that lies in its low part. -/
theorem extractLsb'_append_low {m n : Nat} (a : BitVec m) (b : BitVec n) (lo len : Nat) (h : lo + len ≤ n) :
    (a ++ b).extractLsb' lo len = b.extractLsb' lo len := by
  apply BitVec.eq_of_getLsbD_eq
  intro i hi
  simp only [BitVec.getLsbD_extractLsb', BitVec.getLsbD_append, hi, decide_true, Bool.true_and]
  rw [if_pos (by omega)]

/-- A field of an append that lies in its high part. -/
theorem extractLsb'_append_high {m n : Nat} (a : BitVec m) (b : BitVec n) (lo len : Nat) (h : n ≤ lo) :
    (a ++ b).extractLsb' lo len = a.extractLsb' (lo - n) len := by
  apply BitVec.eq_of_getLsbD_eq
  intro i hi
  simp only [BitVec.getLsbD_extractLsb', BitVec.getLsbD_append, hi, decide_true, Bool.true_and]
  rw [if_neg (by omega), show lo + i - n = lo - n + i by omega]

/-- The whole of a word as a field. -/
theorem extractLsb'_self {n : Nat} (a : BitVec n) : a.extractLsb' 0 n = a := by
  apply BitVec.eq_of_getLsbD_eq
  intro i hi
  simp [hi]

@[simp] theorem bytesOfBe32_be32 (b : Bytes4) : bytesOfBe32 (be32 b) = b := by
  cases b with
  | mk b0 b1 b2 b3 =>
    simp only [bytesOfBe32, be32, Bytes4.mk.injEq]
    refine ⟨?_, ?_, ?_, ?_⟩
    · rw [extractLsb'_append_high _ _ _ _ (by omega), extractLsb'_append_high _ _ _ _ (by omega),
        extractLsb'_append_high _ _ _ _ (by omega)]
      exact extractLsb'_self b0
    · rw [extractLsb'_append_high _ _ _ _ (by omega), extractLsb'_append_high _ _ _ _ (by omega),
        extractLsb'_append_low _ _ _ _ (by omega)]
      exact extractLsb'_self b1
    · rw [extractLsb'_append_high _ _ _ _ (by omega), extractLsb'_append_low _ _ _ _ (by omega)]
      exact extractLsb'_self b2
    · rw [extractLsb'_append_low _ _ _ _ (by omega)]
      exact extractLsb'_self b3

@[simp] theorem bytesOfLe32_le32 (b : Bytes4) : bytesOfLe32 (le32 b) = b := by
  have h := bytesOfBe32_be32 ⟨b.b3, b.b2, b.b1, b.b0⟩
  simp only [bytesOfBe32, be32, Bytes4.mk.injEq] at h
  obtain ⟨h3, h2, h1, h0⟩ := h
  cases b
  simp only [bytesOfLe32, le32, Bytes4.mk.injEq] at *
  exact ⟨h0, h1, h2, h3⟩

/-- The bits of a big-endian word, byte by byte. -/
theorem getLsbD_be32 (b : Bytes4) (j : Nat) :
    (be32 b).getLsbD j = if j < 8 then b.b3.getLsbD j else if j < 16 then b.b2.getLsbD (j - 8)
      else if j < 24 then b.b1.getLsbD (j - 16) else b.b0.getLsbD (j - 24) := by
  change (b.b0 ++ b.b1 ++ b.b2 ++ b.b3 : BitVec (8 + 8 + 8 + 8)).getLsbD j = _
  simp only [BitVec.getLsbD_append, Nat.sub_sub]
  split_ifs <;> first | rfl | omega

/-- The bits of a little-endian word, byte by byte. -/
theorem getLsbD_le32 (b : Bytes4) (j : Nat) :
    (le32 b).getLsbD j = if j < 8 then b.b0.getLsbD j else if j < 16 then b.b1.getLsbD (j - 8)
      else if j < 24 then b.b2.getLsbD (j - 16) else b.b3.getLsbD (j - 24) :=
  getLsbD_be32 ⟨b.b3, b.b2, b.b1, b.b0⟩ j

/-! ## The arbitration ID (spec/30_encoding.md R69 to R72) -/

@[simp] theorem id29Command_id29 (c : BitVec 5) (t : BitVec 16) (d : Byte) : id29Command (id29 c t d) = c := by
  unfold id29Command id29
  rw [extractLsb'_append_high _ _ _ _ (by omega), extractLsb'_append_high _ _ _ _ (by omega)]
  exact extractLsb'_self c

@[simp] theorem id29SenderTag_id29 (c : BitVec 5) (t : BitVec 16) (d : Byte) : id29SenderTag (id29 c t d) = t := by
  unfold id29SenderTag id29
  rw [extractLsb'_append_high _ _ _ _ (by omega), extractLsb'_append_low _ _ _ _ (by omega)]
  exact extractLsb'_self t

@[simp] theorem id29DeviceId_id29 (c : BitVec 5) (t : BitVec 16) (d : Byte) : id29DeviceId (id29 c t d) = d := by
  unfold id29DeviceId id29
  rw [extractLsb'_append_low _ _ _ _ (by omega)]
  exact extractLsb'_self d

/-- The bits of an arbitration ID, field by field (spec/30_encoding.md R69). -/
theorem getLsbD_id29 (c : BitVec 5) (g : BitVec 16) (d : Byte) (j : Nat) :
    (id29 c g d).getLsbD j = if j < 8 then d.getLsbD j else if j < 24 then g.getLsbD (j - 8)
      else c.getLsbD (j - 24) := by
  change (c ++ g ++ d : BitVec (5 + 16 + 8)).getLsbD j = _
  simp only [BitVec.getLsbD_append, Nat.sub_sub]
  split_ifs <;> first | rfl | omega

/-- The bits of a header word in variant A: the ID, unshifted (spec/30_encoding.md R71). -/
theorem getLsbD_headerWord_a (i : BitVec 29) (j : Nat) : (headerWord .a i).getLsbD j = i.getLsbD j := by
  simp only [headerWord, BitVec.getLsbD_setWidth]
  rcases Nat.lt_or_ge j 32 with h | h
  · simp [h]
  · simp [BitVec.getLsbD_of_ge i j (by omega)]

/-- The bits of a header word in variant B: the marker at bit 2, the ID from bit 3 up (spec/30_encoding.md R72). -/
theorem getLsbD_headerWord_b (i : BitVec 29) {j : Nat} (hj : j < 32) :
    (headerWord .b i).getLsbD j = if j < 3 then decide (j = 2) else i.getLsbD (j - 3) := by
  simp only [headerWord, BitVec.getLsbD_or, BitVec.getLsbD_shiftLeft, BitVec.getLsbD_setWidth]
  rcases Nat.lt_or_ge j 3 with h | h
  · rcases (by omega : j = 0 ∨ j = 1 ∨ j = 2) with rfl | rfl | rfl <;> simp
  · have h4 : (0x00000004#32).getLsbD j = false := by
      rw [BitVec.getLsbD_ofNat, Nat.testBit_eq_decide_div_mod_eq]
      have : (4 : Nat) / 2 ^ j = 0 := Nat.div_eq_of_lt (by
        calc 4 < 2 ^ 3 := by decide
          _ ≤ 2 ^ j := Nat.pow_le_pow_right (by omega) h)
      simp [this]
    rw [h4, if_neg (by omega)]
    simp [hj, show ¬ j < 3 by omega]
    omega

/-- The three fields make up the whole ID. -/
theorem id29_fields (i : BitVec 29) : id29 (id29Command i) (id29SenderTag i) (id29DeviceId i) = i := by
  unfold id29 id29Command id29SenderTag id29DeviceId
  apply BitVec.eq_of_getLsbD_eq
  intro j hj
  simp only [BitVec.getLsbD_append, BitVec.getLsbD_extractLsb']
  rcases Nat.lt_or_ge j 8 with h | h
  · simp [h]
  rcases Nat.lt_or_ge j 24 with h2 | h2
  · simp [show ¬ j < 8 by omega, show j - 8 < 16 by omega, show 8 + (j - 8) = j by omega]
  · simp [show ¬ j < 8 by omega, show ¬ j - 8 < 16 by omega, show 24 + (j - 8 - 16) = j by omega]
    intro; omega

/-- Unpacking inverts packing in either variant, bit for bit. -/
@[simp] theorem headerId29_headerWord (v : Variant) (i : BitVec 29) : headerId29 v (headerWord v i) = i := by
  apply BitVec.eq_of_getLsbD_eq
  intro j hj
  cases v
  · simp only [headerId29, headerWord, BitVec.getLsbD_extractLsb', BitVec.getLsbD_setWidth]
    simp [show j < 32 by omega, hj]
  · simp only [headerId29, headerWord, BitVec.getLsbD_extractLsb', BitVec.getLsbD_or, BitVec.getLsbD_shiftLeft,
      BitVec.getLsbD_setWidth]
    have : (0x00000004#32).getLsbD (3 + j) = false := by
      rw [BitVec.getLsbD_ofNat, Nat.testBit_eq_decide_div_mod_eq]
      have h4 : (4 : Nat) / 2 ^ (3 + j) = 0 := by
        apply Nat.div_eq_of_lt
        calc 4 < 2 ^ 3 := by decide
          _ ≤ 2 ^ (3 + j) := Nat.pow_le_pow_right (by omega) (by omega)
      simp [h4]
    rw [BitVec.getLsbD_eq_getElem (by omega)] at this
    simp [this, hj, show 3 + j < 32 by omega, show j < 32 by omega]

theorem aidAccepts_iff {c d : Byte} : aidAccepts c d = true ↔ c.toNat ≤ 31 ∧ d.toNat ≤ 127 := by simp [aidAccepts]

/-- Fields in range are packed (spec/42_arbitration_id.md R152). -/
theorem aidPackHeader_of_fields {v : Variant} {c d : Byte} (g : BitVec 16) (hc : c.toNat ≤ 31) (hd : d.toNat ≤ 127) :
    aidPackHeader v c g d = .ok (bytesOfBe32 (headerWord v (id29 (c.extractLsb' 0 5) g d))) :=
  if_pos (aidAccepts_iff.2 ⟨hc, hd⟩)

/-- Any other fields are refused (R151). -/
theorem aidPackHeader_of_excess {v : Variant} {c d : Byte} (g : BitVec 16) (h : 31 < c.toNat ∨ 127 < d.toNat) :
    aidPackHeader v c g d = .error .illFormedFrame :=
  if_neg fun ha => by have := aidAccepts_iff.1 ha; omega

/-! ## Buffer reads (spec/20_memory.md R50) -/

/-- A read of four bytes is defined exactly when it is in range. -/
theorem bufRead4_isSome {b : List Byte} {off : Nat} : (bufRead4 b off).isSome = true ↔ off + 4 ≤ b.length := by
  have hl := List.length_drop (l := b) (i := off)
  unfold bufRead4
  split
  · rename_i h
    rw [h] at hl
    simp only [List.length_cons] at hl
    simp only [Option.isSome_some, true_iff]
    omega
  · rename_i hno
    simp only [Option.isSome_none, Bool.false_eq_true, false_iff]
    intro hc
    match h : b.drop off with
    | b0 :: b1 :: b2 :: b3 :: rest => exact hno b0 b1 b2 b3 rest h
    | [] | [_] | [_, _] | [_, _, _] => rw [h] at hl; simp only [List.length_cons, List.length_nil] at hl; omega

/-- A read of eight bytes is defined exactly when it is in range. -/
theorem bufRead8_isSome {b : List Byte} {off : Nat} : (bufRead8 b off).isSome = true ↔ off + 8 ≤ b.length := by
  have hl := List.length_drop (l := b) (i := off)
  unfold bufRead8
  split
  · rename_i h
    rw [h] at hl
    simp only [List.length_cons] at hl
    simp only [Option.isSome_some, true_iff]
    omega
  · rename_i hno
    simp only [Option.isSome_none, Bool.false_eq_true, false_iff]
    intro hc
    match h : b.drop off with
    | b0 :: b1 :: b2 :: b3 :: b4 :: b5 :: b6 :: b7 :: rest => exact hno b0 b1 b2 b3 b4 b5 b6 b7 rest h
    | [] | [_] | [_, _] | [_, _, _] | [_, _, _, _] | [_, _, _, _, _] | [_, _, _, _, _, _] | [_, _, _, _, _, _, _] =>
      rw [h] at hl; simp only [List.length_cons, List.length_nil] at hl; omega

/-- Whatever stands on the receive buffer's port passes the check of its length. -/
@[simp] theorem bufferWf_bytes (b : RecvBuffer) : bufferWf b.bytes = true := decide_eq_true b.fits

/-- The 8-bit `in.len` is the number of valid bytes, with no wrap. -/
@[simp] theorem Request.len_toNat (r : Request) : r.len.toNat = r.buf.bytes.length := by
  have := r.buf.fits
  simp only [Request.len, BitVec.toNat_ofNat]
  omega

/-- A buffer of the variant's length is read at every offset the decoder uses, so its last arm is never taken. -/
theorem envDecode_reads {v : Variant} {buf : List Byte} (h : buf.length = envelopeLength v) :
    ∃ marker hd p, buf[dlcOffset v]? = some marker ∧ bufRead4 buf (headerOffset v) = some hd ∧
      bufRead8 buf (payloadOffset v) = some p := by
  have h4 : (bufRead4 buf (headerOffset v)).isSome = true := bufRead4_isSome.2 (by
    rw [h]; cases v <;> decide)
  have h8 : (bufRead8 buf (payloadOffset v)).isSome = true := bufRead8_isSome.2 (by
    rw [h]; cases v <;> decide)
  have h1 : dlcOffset v < buf.length := by rw [h]; cases v <;> decide
  obtain ⟨hd, h4⟩ := Option.isSome_iff_exists.1 h4
  obtain ⟨p, h8⟩ := Option.isSome_iff_exists.1 h8
  exact ⟨buf[dlcOffset v], hd, p, List.getElem?_eq_getElem h1, h4, h8⟩

/-- A buffer of the variant's length with the DLC marker in its place decodes. -/
theorem envDecode_of_match {v : Variant} {buf : List Byte} (h : buf.length = envelopeLength v)
    (hm : buf[dlcOffset v]? = some dlcLit) :
    ∃ hd p, envDecode v buf = .ok (hd, p) ∧ bufRead4 buf (headerOffset v) = some hd ∧
      bufRead8 buf (payloadOffset v) = some p := by
  obtain ⟨m, hd, p, a, b, c⟩ := envDecode_reads h
  rw [hm, Option.some.injEq] at a
  subst a
  refine ⟨hd, p, ?_, b, c⟩
  unfold envDecode
  rw [if_neg (not_not.2 h), hm, b, c]
  exact if_neg (not_not.2 rfl)

/-- Any other buffer is malformed. -/
theorem envDecode_of_mismatch {v : Variant} {buf : List Byte}
    (h : buf.length ≠ envelopeLength v ∨ buf[dlcOffset v]? ≠ some dlcLit) :
    envDecode v buf = .error .malformedFrame := by
  unfold envDecode
  split
  · rfl
  · rename_i hl
    split
    · rename_i marker _ _ h1 _ _
      refine if_pos fun hc => ?_
      rw [h1, hc] at h
      exact h.elim hl fun h => h rfl
    · rfl

/-- The envelope has the variant's length. -/
theorem length_envelopeBytes (c : Cfg) (h : Bytes4) (p : Bytes8) :
    (envelopeBytes c h p).length = envelopeLength c.variant := by
  unfold envelopeBytes envelopeLength
  cases c.variant <;> rfl

/-- Decoding an envelope gives back the header and the payload that were put in it. -/
theorem envDecode_envelopeBytes (c : Cfg) (h : Bytes4) (p : Bytes8) :
    envDecode c.variant (envelopeBytes c h p) = .ok (h, p) := by
  unfold envDecode
  rw [length_envelopeBytes, if_neg (by simp)]
  unfold envelopeBytes
  cases c.variant <;> rfl

end Sys2Proof.Machine
end

