-- ==== Sys2Proof/Laws/State.lean ====
section
/-! SUPPORT. The fields of the state after each shared update, so that no later proof unfolds a record update. -/

namespace Sys2Proof.Machine

variable (s : State) (r : Response) (straps : Cfg)

@[simp] theorem State.withResponse_cfg : (s.withResponse r).cfg = s.cfg := rfl
@[simp] theorem State.withResponse_inp : (s.withResponse r).inp = s.inp := rfl
@[simp] theorem State.withResponse_resp : (s.withResponse r).resp = some r := rfl
@[simp] theorem State.withResponse_host : (s.withResponse r).host = s.host := rfl
@[simp] theorem State.withResponse_delivered : (s.withResponse r).delivered = s.delivered := rfl

@[simp] theorem State.withResponse_inj {r' : Response} : s.withResponse r = s.withResponse r' ↔ r = r' := by
  constructor
  · intro h; simpa using congrArg State.resp h
  · rintro rfl; rfl

@[simp] theorem State.resetOf_cfg : (State.resetOf straps).cfg = straps.sample := rfl
@[simp] theorem State.resetOf_inp : (State.resetOf straps).inp = Request.undriven := rfl
@[simp] theorem State.resetOf_resp : (State.resetOf straps).resp = none := rfl
@[simp] theorem State.resetOf_host : (State.resetOf straps).host = [] := rfl
@[simp] theorem State.resetOf_delivered : (State.resetOf straps).delivered = [] := rfl

@[simp] theorem resetBlock_cfg : (resetBlock straps s).cfg = straps.sample := rfl
@[simp] theorem resetBlock_inp : (resetBlock straps s).inp = Request.undriven := rfl
@[simp] theorem resetBlock_resp : (resetBlock straps s).resp = none := rfl
@[simp] theorem resetBlock_host : (resetBlock straps s).host = s.host := rfl
@[simp] theorem resetBlock_delivered : (resetBlock straps s).delivered = s.delivered := rfl

@[simp] theorem takeResponse_cfg : (takeResponse s).cfg = s.cfg := by unfold takeResponse; split <;> rfl
@[simp] theorem takeResponse_host : (takeResponse s).host = s.host := by unfold takeResponse; split <;> rfl

@[simp] theorem takeResponse_resp : (takeResponse s).resp = none := by
  unfold takeResponse
  split
  · rfl
  · assumption

/-- Taking a pending response clears every port and hands the response to the host. -/
theorem takeResponse_of_pending (h : s.resp = some r) :
    takeResponse s = { s with inp := Request.undriven, resp := none, delivered := s.delivered ++ [r] } := by
  simp only [takeResponse, h]

/-- With no response pending there is nothing to take. -/
theorem takeResponse_of_none (h : s.resp = none) : takeResponse s = s := by
  simp only [takeResponse, h]

/-- Taking delivers nothing but the response that was pending. -/
theorem mem_takeResponse_delivered {r' : Response} (h : r' ∈ (takeResponse s).delivered) :
    r' ∈ s.delivered ∨ s.resp = some r' := by
  unfold takeResponse at h
  split at h
  · rename_i r0 hr
    rcases List.mem_append.1 h with h | h
    · exact .inl h
    · right; rw [List.mem_singleton.1 h]; exact hr
  · exact .inl h

@[simp] theorem Cfg.sample_posRange : straps.sample.posRange = Config.posRange := rfl
@[simp] theorem Cfg.sample_variant : straps.sample.variant = straps.variant := rfl
@[simp] theorem Cfg.sample_replyRoute : straps.sample.replyRoute = straps.replyRoute := rfl

end Sys2Proof.Machine
end

