-- ==== Sys2Proof/Laws/Ops.lean ====
section
/-! SUPPORT. What the shared operations can do, said once: every operation puts a response on the response ports and
changes nothing else, and a response that is not `OK` defines no port. -/

namespace Sys2Proof.Machine

/-! ## The response of an outcome -/

/-- What an operation's computation puts on the response ports. -/
def responseOf : Except Status OutPorts → Response
  | .ok out => okResponse out
  | .error st => failResponse st

/-- `respond` always answers a next state, and changes only the response ports. -/
theorem respond_eq (r : Except Status OutPorts) (s : State) : respond r s = .next (s.withResponse (responseOf r)) := by
  cases r <;> rfl

theorem deliver_eq (out : OutPorts) (s : State) : deliver out s = .next (s.withResponse (okResponse out)) := rfl

theorem fail_eq (st : Status) (s : State) : fail st s = .next (s.withResponse (failResponse st)) := rfl

@[simp] theorem okResponse_status (out : OutPorts) : (okResponse out).status = .ok := rfl
@[simp] theorem okResponse_out (out : OutPorts) : (okResponse out).out = out := rfl
@[simp] theorem failResponse_status (st : Status) : (failResponse st).status = st := rfl
@[simp] theorem failResponse_out (st : Status) : (failResponse st).out = OutPorts.undefined := rfl

/-- No port is defined where none is written. -/
@[simp] theorem OutPorts.isDefined_undefined (p : PortName) : OutPorts.undefined.isDefined p = false := by
  cases p <;> rfl

/-! ## The response of each operation -/

/-- `QUANT` up to the result ports, the guard of R105 discharged. -/
def quantResult (r : Request) : Except Status OutPorts :=
  (quantize binary64 r.range r.x).map fun n => { u := some (BitVec.ofNat 32 n) }

/-- `QUANT` never faults (spec/40_fixed_point_codec.md R105). -/
theorem execQuant_eq (s : State) : execQuant s = respond (quantResult s.inp) s := by
  unfold execQuant quantResult
  cases h : quantize binary64 s.inp.range s.inp.x with
  | error st => rfl
  | ok n => exact if_pos (quantize_le h)

/-- What an operation computes from the configuration and its operands: its result ports or a status. -/
def resultOf (i : Instr) (c : Cfg) (r : Request) : Except Status OutPorts :=
  match i with
  | .quant => quantResult r
  | .dequant => (dequantize binary64 r.range r.u).map fun y => { y := some y }
  | .packU8 => (packScalar (some .u8) r.val).map fun b => { b4 := some b }
  | .packS8 => (packScalar (some .s8) r.val).map fun b => { b4 := some b }
  | .packU16 => (packScalar (some .u16) r.val).map fun b => { b4 := some b }
  | .packS16 => (packScalar (some .s16) r.val).map fun b => { b4 := some b }
  | .packU32 => (packScalar (some .u32) r.val).map fun b => { b4 := some b }
  | .packS32 => (packScalar (some .s32) r.val).map fun b => { b4 := some b }
  | .packF32 => (packScalar (some .f32) r.val).map fun b => { b4 := some b }
  | .packBadtag => .error .unknownTypeTag
  | .unpackU8 => (unpackScalar (some .u8) r.b4).map fun v => { val := some v }
  | .unpackS8 => (unpackScalar (some .s8) r.b4).map fun v => { val := some v }
  | .unpackU16 => (unpackScalar (some .u16) r.b4).map fun v => { val := some v }
  | .unpackS16 => (unpackScalar (some .s16) r.b4).map fun v => { val := some v }
  | .unpackU32 => (unpackScalar (some .u32) r.b4).map fun v => { val := some v }
  | .unpackS32 => (unpackScalar (some .s32) r.b4).map fun v => { val := some v }
  | .unpackF32 => (unpackScalar (some .f32) r.b4).map fun v => { val := some v }
  | .unpackBadtag => .error .unknownTypeTag
  | .aidPack => (aidPackHeader c.variant r.command r.senderTag r.deviceId).map fun h => { h := some h }
  | .aidUnpack =>
    .ok { command := some (id29Command (aidOfHeader c.variant r.h)),
          senderTag := some (id29SenderTag (aidOfHeader c.variant r.h)),
          deviceId := some (id29DeviceId (aidOfHeader c.variant r.h)) }
  | .envEnc => (envEncode c r.dlc r.h r.payload).map (envelopePorts c.variant)
  | .envDec =>
    (envDecode c.variant r.buf.bytes).map fun hp => { dlc := some dlcLit, h := some hp.1, payload := some hp.2 }
  | .frameEnc =>
    (frameEncode c r.dlc r.command r.senderTag r.deviceId r.payload).map (envelopePorts c.variant)
  | .frameDec => (envDecode c.variant r.buf.bytes).map fun hp => framePorts c.variant hp.1 hp.2
  | .fltStatus => .ok (OutPorts.undefined.withStatusFaults (classifyStatus r.statusWord))
  | .fltReport => .ok (OutPorts.undefined.withReportFaults (classifyReport r.payload))
  | .tlmDec => (decodeTelemetry binary64 c r.payload).map OutPorts.undefined.withTelemetry
  | .rxDecode => decodeReply binary64 c r.command r.senderTag r.deviceId r.payload

/-- Every operation answers a next state that differs from the one before in the response ports alone, and its response
is a function of the configuration and the request. -/
theorem exec_eq (i : Instr) (s : State) :
    exec i s = .next (s.withResponse (responseOf (resultOf i s.cfg s.inp))) := by
  rw [← respond_eq]
  cases i
  case quant => exact execQuant_eq s
  all_goals rfl

/-- A response with a status that is not `OK` defines no port, provided no computation fails with `OK`. -/
theorem responseOf_out {r : Except Status OutPorts} (h : (responseOf r).status ≠ .ok) :
    (responseOf r).out = OutPorts.undefined := by
  cases r with
  | ok out => exact absurd rfl h
  | error st => rfl

/-! ## The step -/

/-- A presented request with an assigned selector is executed. -/
theorem serveRequest_of_decode {s : State} {i : Instr} (h : decode s.inp.op = .ok i) : serveRequest s = exec i s := by
  simp only [serveRequest, h]

/-- A presented request with an unassigned selector gives `IllegalOp`. -/
theorem serveRequest_of_illegal {s : State} {e : DecodeError} (h : decode s.inp.op = .error e) :
    serveRequest s = fail .illegalOp s := by
  simp only [serveRequest, h]

/-- The response a request is answered with. -/
def answerOf (c : Cfg) (r : Request) : Response :=
  match decode r.op with
  | .ok i => responseOf (resultOf i c r)
  | .error _ => failResponse .illegalOp

/-- Serving a request always answers a next state, and changes only the response ports. -/
theorem serveRequest_eq (s : State) : serveRequest s = .next (s.withResponse (answerOf s.cfg s.inp)) := by
  unfold serveRequest answerOf
  cases h : decode s.inp.op with
  | ok i => exact exec_eq i s
  | error e => rfl

/-- Everything a step that answers can do, by the host's next move. -/
theorem step_cases {s t : State} (h : step s = .next t) :
    (s.host = [] ∧ t = s) ∨
    (∃ rest, s.host = .idle :: rest ∧ t = { s with host := rest }) ∨
    (∃ rest, s.host = .take :: rest ∧ t = takeResponse { s with host := rest }) ∨
    (∃ rest straps, s.host = .assertReset straps :: rest ∧ t = resetBlock straps { s with host := rest }) ∨
    (∃ rest r, s.host = .present r :: rest ∧ s.resp = none ∧
      t = State.withResponse { s with host := rest, inp := r } (answerOf s.cfg r)) := by
  unfold step at h
  cases hh : s.host with
  | nil =>
    simp only [hh, Host.Outcome.next.injEq] at h
    exact .inl ⟨rfl, h.symm⟩
  | cons m rest =>
    simp only [hh] at h
    cases m with
    | idle =>
      simp only [hostMove, Host.Outcome.next.injEq] at h
      exact .inr (.inl ⟨rest, rfl, h.symm⟩)
    | take =>
      simp only [hostMove, Host.Outcome.next.injEq] at h
      exact .inr (.inr (.inl ⟨rest, rfl, h.symm⟩))
    | assertReset straps =>
      simp only [hostMove, Host.Outcome.next.injEq] at h
      exact .inr (.inr (.inr (.inl ⟨rest, straps, rfl, h.symm⟩)))
    | present r =>
      simp only [hostMove, acceptRequest] at h
      cases hr : s.resp with
      | some r' => simp [hr] at h
      | none =>
        simp only [hr, serveRequest_eq, Host.Outcome.next.injEq] at h
        refine .inr (.inr (.inr (.inr ⟨rest, r, rfl, rfl, ?_⟩)))
        rw [← h]

end Sys2Proof.Machine
end

