-- ==== Sys2Proof/Laws/PerInstr.lean ====
section
/-! SUPPORT. The family `Selector`, made per instruction: the selector of an operation splits into the family and the
operation within it as spec/30_encoding.md R60 says. -/

namespace Sys2Proof.Laws.Selector

/-- The selector is its family nibble followed by its operation nibble, and it is assigned (R60, R61). -/
def Statement (i : Instr) : Prop :=
  encode i = selectorFamily (encode i) ++ selectorOperation (encode i) ∧ selectorWf (encode i) = true

theorem quant : Statement .quant := by unfold Statement; decide
theorem dequant : Statement .dequant := by unfold Statement; decide
theorem packU8 : Statement .packU8 := by unfold Statement; decide
theorem packS8 : Statement .packS8 := by unfold Statement; decide
theorem packU16 : Statement .packU16 := by unfold Statement; decide
theorem packS16 : Statement .packS16 := by unfold Statement; decide
theorem packU32 : Statement .packU32 := by unfold Statement; decide
theorem packS32 : Statement .packS32 := by unfold Statement; decide
theorem packF32 : Statement .packF32 := by unfold Statement; decide
theorem packBadtag : Statement .packBadtag := by unfold Statement; decide
theorem unpackU8 : Statement .unpackU8 := by unfold Statement; decide
theorem unpackS8 : Statement .unpackS8 := by unfold Statement; decide
theorem unpackU16 : Statement .unpackU16 := by unfold Statement; decide
theorem unpackS16 : Statement .unpackS16 := by unfold Statement; decide
theorem unpackU32 : Statement .unpackU32 := by unfold Statement; decide
theorem unpackS32 : Statement .unpackS32 := by unfold Statement; decide
theorem unpackF32 : Statement .unpackF32 := by unfold Statement; decide
theorem unpackBadtag : Statement .unpackBadtag := by unfold Statement; decide
theorem aidPack : Statement .aidPack := by unfold Statement; decide
theorem aidUnpack : Statement .aidUnpack := by unfold Statement; decide
theorem envEnc : Statement .envEnc := by unfold Statement; decide
theorem envDec : Statement .envDec := by unfold Statement; decide
theorem frameEnc : Statement .frameEnc := by unfold Statement; decide
theorem frameDec : Statement .frameDec := by unfold Statement; decide
theorem fltStatus : Statement .fltStatus := by unfold Statement; decide
theorem fltReport : Statement .fltReport := by unfold Statement; decide
theorem tlmDec : Statement .tlmDec := by unfold Statement; decide
theorem rxDecode : Statement .rxDecode := by unfold Statement; decide

end Sys2Proof.Laws.Selector
end

