-- ==== Sys2Proof/Laws/Scalar.lean ====
section
/-! SUPPORT. The scalar codec by numbers: what each tag accepts, what it packs, and what it unpacks
(spec/41_scalar_pack.md R121, R131). -/

namespace Sys2Proof.Machine

/-- A value the tag can hold is packed. -/
theorem packScalar_of_fits {t : TypeTag} {val : Word32} (h : fitsTag t val = true) :
    packScalar (some t) val = .ok (paddedLe (tagWidth t) val) := if_pos h

/-- A value it cannot hold is out of range. -/
theorem packScalar_of_misfit {t : TypeTag} {val : Word32} (h : ¬ fitsTag t val = true) :
    packScalar (some t) val = .error .valueOutOfRange := if_neg h

theorem fitsUnsigned_iff {w : Nat} {val : Word32} : fitsUnsigned w val = true ↔ val.toNat < 2 ^ (8 * w) := by
  simp only [fitsUnsigned, beq_iff_eq, ← BitVec.toNat_inj, BitVec.toNat_ushiftRight, Nat.shiftRight_eq_div_pow]
  simp [Nat.div_eq_zero_iff]

/-- `PACK.U8` accepts 0 to 255 (R122). -/
theorem fitsTag_u8 {val : Word32} : fitsTag .u8 val = true ↔ val.toNat ≤ 255 := by
  change fitsUnsigned 1 val = true ↔ _
  rw [fitsUnsigned_iff]; omega

/-- `PACK.U16` accepts 0 to 65535 (R124). -/
theorem fitsTag_u16 {val : Word32} : fitsTag .u16 val = true ↔ val.toNat ≤ 65535 := by
  change fitsUnsigned 2 val = true ↔ _
  rw [fitsUnsigned_iff]; omega

/-- `PACK.S8` accepts -128 to 127 (R123). -/
theorem fitsTag_s8 {val : Word32} : fitsTag .s8 val = true ↔ -128 ≤ val.toInt ∧ val.toInt ≤ 127 := by
  change ((val.setWidth 8).signExtend 32 == val) = true ↔ _
  rw [beq_iff_eq, ← BitVec.toInt_inj, BitVec.toInt_signExtend_of_le (by omega)]
  simp only [BitVec.toInt_eq_toNat_cond, BitVec.toNat_setWidth]
  have := val.isLt
  split <;> split <;> omega

/-- `PACK.S16` accepts -32768 to 32767 (R125). -/
theorem fitsTag_s16 {val : Word32} : fitsTag .s16 val = true ↔ -32768 ≤ val.toInt ∧ val.toInt ≤ 32767 := by
  change ((val.setWidth 16).signExtend 32 == val) = true ↔ _
  rw [beq_iff_eq, ← BitVec.toInt_inj, BitVec.toInt_signExtend_of_le (by omega)]
  simp only [BitVec.toInt_eq_toNat_cond, BitVec.toNat_setWidth]
  have := val.isLt
  split <;> split <;> omega

/-- The low bits of a sign extension are the number extended. -/
theorem setWidth_signExtend {n m : Nat} (x : BitVec n) (h : n ≤ m) : (x.signExtend m).setWidth n = x := by
  apply BitVec.eq_of_getLsbD_eq
  intro i hi
  simp only [BitVec.getLsbD_setWidth, BitVec.getLsbD_signExtend, hi, show i < m by omega, decide_true, Bool.true_and,
    if_true]

/-- A byte of a value by division. -/
theorem ofNat_div_eq_extractLsb' (v : Word32) (k : Nat) : BitVec.ofNat 8 (v.toNat / 2 ^ k) = v.extractLsb' k 8 := by
  apply BitVec.eq_of_toNat_eq
  simp [BitVec.extractLsb'_toNat, Nat.shiftRight_eq_div_pow]

theorem paddedLe_one (v : Word32) : paddedLe 1 v = ⟨v.extractLsb' 0 8, 0#8, 0#8, 0#8⟩ := by
  simp only [paddedLe, bytesOfLe32, Bytes4.mk.injEq]
  refine ⟨?_, ?_, ?_, ?_⟩ <;> apply BitVec.eq_of_getLsbD_eq <;> intro i hi <;> interval_cases i <;> simp

theorem paddedLe_two (v : Word32) : paddedLe 2 v = ⟨v.extractLsb' 0 8, v.extractLsb' 8 8, 0#8, 0#8⟩ := by
  simp only [paddedLe, bytesOfLe32, Bytes4.mk.injEq]
  refine ⟨?_, ?_, ?_, ?_⟩ <;> apply BitVec.eq_of_getLsbD_eq <;> intro i hi <;> interval_cases i <;> simp

theorem paddedLe_four (v : Word32) : paddedLe 4 v = bytesOfLe32 v := by simp [paddedLe]

/-- The number in four bytes, the first the least significant (spec/20_memory.md R42). -/
theorem toNat_le32 (b : Bytes4) :
    (le32 b).toNat = b.b0.toNat + 256 * b.b1.toNat + 65536 * b.b2.toNat + 16777216 * b.b3.toNat := by
  simp only [le32, BitVec.toNat_append]
  rw [← Nat.shiftLeft_add_eq_or_of_lt (by omega), ← Nat.shiftLeft_add_eq_or_of_lt (by omega),
    ← Nat.shiftLeft_add_eq_or_of_lt (by omega)]
  simp only [Nat.shiftLeft_eq]
  omega

end Sys2Proof.Machine
end

