-- ==== Sys2Proof/Laws/Results.lean ====
section
/-! SUPPORT. When each computation fails and with which status: one lemma per computation, then one for all 28
operations (a failure is never `OK`, and is a status of the operation's row). -/

namespace Sys2Proof.Machine

theorem quantize_of_invalid {fp : Numerics} {r : PhysicalRange} (x : F64) (h : rangeValid fp r = false) :
    quantize fp r x = .error .invalidRange := by simp [quantize, h]

theorem quantize_of_nan {fp : Numerics} {r : PhysicalRange} {x : F64} (h : rangeValid fp r = true)
    (hx : fp.isNaN x = true) : quantize fp r x = .error .invalidOperand := by simp [quantize, h, hx]

theorem quantize_of_valid {fp : Numerics} {r : PhysicalRange} {x : F64} (h : rangeValid fp r = true)
    (hx : fp.isNaN x = false) : quantize fp r x = .ok (fp.floorToNat (quantScaled fp r x)) := by
  simp [quantize, h, hx]

theorem dequantize_of_invalid {fp : Numerics} {r : PhysicalRange} (u : Word32) (h : rangeValid fp r = false) :
    dequantize fp r u = .error .invalidRange := by simp [dequantize, h]

theorem dequantize_of_valid {fp : Numerics} {r : PhysicalRange} (u : Word32) (h : rangeValid fp r = true) :
    dequantize fp r u = .ok (dequantValue fp r u) := by simp [dequantize, h]

theorem quantize_error {fp : Numerics} {r : PhysicalRange} {x : F64} {st : Status} (h : quantize fp r x = .error st) :
    st = .invalidRange ∨ st = .invalidOperand := by
  unfold quantize at h
  split at h
  · simp only [Except.error.injEq] at h; exact .inl h.symm
  · split at h
    · simp only [Except.error.injEq] at h; exact .inr h.symm
    · cases h

theorem dequantize_error {fp : Numerics} {r : PhysicalRange} {u : Word32} {st : Status}
    (h : dequantize fp r u = .error st) : st = .invalidRange := by
  unfold dequantize at h
  split at h
  · simp only [Except.error.injEq] at h; exact h.symm
  · cases h

theorem packScalar_error {t : TypeTag} {val : Word32} {st : Status} (h : packScalar (some t) val = .error st) :
    st = .valueOutOfRange := by
  simp only [packScalar] at h
  split at h
  · cases h
  · simp only [Except.error.injEq] at h; exact h.symm

/-- The range check is vacuous for the 32-bit tags (spec/41_scalar_pack.md R121). -/
theorem fitsTag_full {t : TypeTag} (h : tagWidth t = 4) (val : Word32) : fitsTag t val = true := by
  cases t <;> simp only [tagWidth] at h <;> first | omega | skip
  · simp only [fitsTag, fitsUnsigned, tagWidth, beq_iff_eq]
    exact BitVec.ushiftRight_eq_zero (by omega)
  · simp [fitsTag, fitsSigned, tagWidth]
  · rfl

theorem packScalar_full {t : TypeTag} (h : tagWidth t = 4) (val : Word32) :
    packScalar (some t) val = .ok (paddedLe (tagWidth t) val) := by
  simp only [packScalar, fitsTag_full h, if_true]

theorem aidPackHeader_error {v : Variant} {c d : Byte} {g : BitVec 16} {st : Status}
    (h : aidPackHeader v c g d = .error st) : st = .illFormedFrame := by
  unfold aidPackHeader at h
  split at h
  · cases h
  · simp only [Except.error.injEq] at h; exact h.symm

theorem envEncode_error {c : Cfg} {dlc : Byte} {hd : Bytes4} {p : Bytes8} {st : Status}
    (h : envEncode c dlc hd p = .error st) : st = .illFormedFrame := by
  unfold envEncode at h
  split at h
  · cases h
  · simp only [Except.error.injEq] at h; exact h.symm

theorem frameEncode_error {c : Cfg} {dlc cm d : Byte} {g : BitVec 16} {p : Bytes8} {st : Status}
    (h : frameEncode c dlc cm g d p = .error st) : st = .illFormedFrame := by
  unfold frameEncode at h
  split at h
  · simp only [Except.error.injEq] at h; exact h.symm
  · split at h
    · rename_i h'
      simp only [Except.error.injEq] at h
      exact h ▸ aidPackHeader_error h'
    · exact envEncode_error h

theorem envDecode_error {v : Variant} {buf : List Byte} {st : Status} (h : envDecode v buf = .error st) :
    st = .malformedFrame := by
  unfold envDecode at h
  split at h
  · simp only [Except.error.injEq] at h; exact h.symm
  · split at h
    · split at h
      · simp only [Except.error.injEq] at h; exact h.symm
      · cases h
    · simp only [Except.error.injEq] at h; exact h.symm

theorem decodeTelemetry_error {fp : Numerics} {c : Cfg} {p : Bytes8} {st : Status}
    (h : decodeTelemetry fp c p = .error st) : st = .invalidRange := by
  unfold decodeTelemetry at h
  split at h
  · cases h
  all_goals
    simp only [Except.error.injEq] at h
    subst h
    exact dequantize_error (by assumption)

/-- With the three configured ranges valid the telemetry of every payload decodes (spec/44_fault_classifier.md R211). -/
theorem decodeTelemetry_of_valid {fp : Numerics} {c : Cfg} (p : Bytes8) (h1 : rangeValid fp c.posRange = true)
    (h2 : rangeValid fp c.velRange = true) (h3 : rangeValid fp c.trqRange = true) :
    decodeTelemetry fp c p = .ok
      { posU := payloadPos p, velU := payloadVel p, trqU := payloadTrq p, tempRaw := payloadTemp p,
        pos := dequantValue fp c.posRange ((payloadPos p).setWidth 32),
        vel := dequantValue fp c.velRange ((payloadVel p).setWidth 32),
        trq := dequantValue fp c.trqRange ((payloadTrq p).setWidth 32),
        tempC := fp.mul (fp.ofNat (payloadTemp p).toNat) tenth } := by
  unfold decodeTelemetry
  simp only [Cfg.range, dequantize_of_valid _ h1, dequantize_of_valid _ h2, dequantize_of_valid _ h3]

/-- With one of the three configured ranges not valid no telemetry decodes. -/
theorem decodeTelemetry_of_invalid {fp : Numerics} {c : Cfg} (p : Bytes8)
    (h : rangeValid fp c.posRange = false ∨ rangeValid fp c.velRange = false ∨ rangeValid fp c.trqRange = false) :
    decodeTelemetry fp c p = .error .invalidRange := by
  cases hd : decodeTelemetry fp c p with
  | error st => rw [decodeTelemetry_error hd]
  | ok t =>
    unfold decodeTelemetry at hd
    split at hd
    · rename_i h1 h2 h3
      rcases h with h | h | h
      · rw [show c.range .pos = c.posRange from rfl, dequantize_of_invalid _ h] at h1; cases h1
      · rw [show c.range .vel = c.velRange from rfl, dequantize_of_invalid _ h] at h2; cases h2
      · rw [show c.range .trq = c.trqRange from rfl, dequantize_of_invalid _ h] at h3; cases h3
    all_goals cases hd

theorem decodeReply_error {fp : Numerics} {c : Cfg} {cm d : Byte} {g : BitVec 16} {p : Bytes8} {st : Status}
    (h : decodeReply fp c cm g d p = .error st) : st = .invalidRange ∨ st = .notDecodable := by
  unfold decodeReply at h
  simp only at h
  split at h
  · cases hd : decodeTelemetry fp c p with
    | error e =>
      rw [hd] at h
      simp only [Except.map, Except.error.injEq] at h
      exact .inl (h ▸ decodeTelemetry_error hd)
    | ok t => rw [hd] at h; cases h
  · split at h
    · cases h
    · simp only [Except.error.injEq] at h; exact .inr h.symm

/-- The path of command 2 (spec/44_fault_classifier.md R215). -/
theorem decodeReply_motion {fp : Numerics} {c : Cfg} {cm d : Byte} {g : BitVec 16} {p : Bytes8} (h : cm = 2#8) :
    decodeReply fp c cm g d p = (decodeTelemetry fp c p).map fun t =>
      motionPorts (replyRoute c.replyRoute g d).2 t (classifyStatus (replyRoute c.replyRoute g d).1) := if_pos h

/-- The path of command 21 (R215). -/
theorem decodeReply_report {fp : Numerics} {c : Cfg} {cm d : Byte} {g : BitVec 16} {p : Bytes8} (h : cm = 21#8) :
    decodeReply fp c cm g d p = .ok (reportPorts (replyRoute c.replyRoute g d).2 (classifyReport p)) := by
  subst h; rfl

/-- No other command has a decode path (R215). -/
theorem decodeReply_other {fp : Numerics} {c : Cfg} {cm d : Byte} {g : BitVec 16} {p : Bytes8} (h2 : cm ≠ 2#8)
    (h21 : cm ≠ 21#8) : decodeReply fp c cm g d p = .error .notDecodable :=
  (if_neg h2).trans (if_neg h21)

/-- A mapped computation fails only where the computation does. -/
theorem error_of_map_error {α : Type} {f : α → OutPorts} {r : Except Status α} {st : Status}
    (h : r.map f = .error st) : r = .error st := by
  cases r with
  | error e => simpa [Except.map] using h
  | ok a => cases h

/-- The failure of an operation is never `OK`, and is a status of the operation's row of spec/60_exceptions.md R232. -/
theorem resultOf_error {i : Instr} {c : Cfg} {r : Request} {st : Status} (h : resultOf i c r = .error st) :
    st ≠ .ok ∧ st ∈ statusesOf i := by
  cases i
  case quant => rcases quantize_error (error_of_map_error h) with h | h <;> subst h <;> decide
  case dequant => have := dequantize_error (error_of_map_error h); subst this; decide
  case packU8 | packS8 | packU16 | packS16 =>
    have := packScalar_error (error_of_map_error h); subst this; decide
  case packU32 | packS32 | packF32 =>
    simp only [resultOf, packScalar_full (t := .u32) rfl, packScalar_full (t := .s32) rfl,
      packScalar_full (t := .f32) rfl] at h
    cases h
  case packBadtag | unpackBadtag =>
    simp only [resultOf, Except.error.injEq] at h
    subst h; decide
  case aidPack => have := aidPackHeader_error (error_of_map_error h); subst this; decide
  case envEnc => have := envEncode_error (error_of_map_error h); subst this; decide
  case envDec | frameDec => have := envDecode_error (error_of_map_error h); subst this; decide
  case frameEnc => have := frameEncode_error (error_of_map_error h); subst this; decide
  case tlmDec => have := decodeTelemetry_error (error_of_map_error h); subst this; decide
  case rxDecode => rcases decodeReply_error h with h | h <;> subst h <;> decide
  all_goals cases h

/-- Of an operation's response: a status that is not `OK` is the failure, and `OK` is the delivery. -/
theorem responseOf_resultOf (i : Instr) (c : Cfg) (r : Request) :
    (∃ out, resultOf i c r = .ok out ∧ responseOf (resultOf i c r) = okResponse out) ∨
    (∃ st, st ≠ .ok ∧ resultOf i c r = .error st ∧ responseOf (resultOf i c r) = failResponse st) := by
  cases h : resultOf i c r with
  | ok out => exact .inl ⟨out, rfl, rfl⟩
  | error st => exact .inr ⟨st, (resultOf_error h).1, rfl, rfl⟩

/-- The response to any request delivers a whole result or none (spec/60_exceptions.md R236). -/
theorem answerOf_out {c : Cfg} {r : Request} (h : (answerOf c r).status ≠ .ok) :
    (answerOf c r).out = OutPorts.undefined := by
  unfold answerOf at *
  cases hd : decode r.op with
  | ok i => simp only [hd] at *; exact responseOf_out h
  | error e => rfl

end Sys2Proof.Machine
end

