-- ==== Sys2Proof/Tests/Slice0.lean ====
section
/-! SUPPORT. Tests of the model on the spec's own words and vectors (spec/95_test_vectors.md, one row or one example a
test, its id in the docstring), and for every statement with hypotheses a concrete state and operands that meet
them. -/

namespace Sys2Proof.Machine.Slice0

-- One theorem after another: each kernel evaluation below asks for a thread of its own.
set_option Elab.async false

/-! ## Helpers -/

/-- A block of the given variant and reply route with the given request on its ports. -/
def block (v : Variant) (route : ReplyRoute) (r : Request) : State :=
  { State.reset with cfg := { State.reset.cfg with variant := v, replyRoute := route }, inp := r }

/-- The response an outcome leaves on the ports. -/
def pending : Host.Outcome State Fault Refusal → Option Response
  | .next t => t.resp
  | .fault _ => none
  | .refused _ => none

/-- The response of an operation on a variant B, LITERAL block. -/
def answer (i : Instr) (r : Request) : Option Response := pending (exec i (block .b .literal r))

/-- The response of an operation on a variant A, FIRMWARE block. -/
def answerA (i : Instr) (r : Request) : Option Response := pending (exec i (block .a .firmware r))

/-- A request with nothing but zeros. -/
def blank : Request := Request.undriven

/-- A request with an `f64` operand in the range POS. -/
def quantPos (x : F64) : Request :=
  { blank with x := x, min := 0xC029000000000000#64, max := 0x4029000000000000#64, bits := 16#6 }

/-- A request with a code in the range POS. -/
def dequantPos (u : Word32) : Request := { quantPos 0#64 with u := u }

/-- A request with the scalar `val`. -/
def scalar (val : Word32) : Request := { blank with val := val }

/-- A request with four scalar bytes. -/
def bytes (b0 b1 b2 b3 : Byte) : Request := { blank with b4 := ⟨b0, b1, b2, b3⟩ }

/-- A request with four header bytes. -/
def header (b0 b1 b2 b3 : Byte) : Request := { blank with h := ⟨b0, b1, b2, b3⟩ }

/-- A request with the three arbitration-ID fields. -/
def fields (c : Byte) (g : BitVec 16) (d : Byte) : Request := { blank with command := c, senderTag := g, deviceId := d }

/-- A request with a payload. -/
def payload (b0 b1 b2 b3 b4 b5 b6 b7 : Byte) : Request := { blank with payload := ⟨b0, b1, b2, b3, b4, b5, b6, b7⟩ }

/-- Eight zero bytes. -/
def zeros : List Byte := [0#8, 0#8, 0#8, 0#8, 0#8, 0#8, 0#8, 0#8]

/-- A block that is about to be presented a request with the given selector. -/
def presenting (op : Byte) : State := { State.reset with host := [.present { blank with op := op }] }

/-! ## Well-formedness: each check refuses an ill-formed term -/

/-- spec/30_encoding.md R62: 0x02, 0x0F, 0x22, 0x34, 0x44 and 0xFF are unassigned. -/
theorem test_selectorWf_refuses :
    selectorWf 0x02#8 = false ∧ selectorWf 0x0F#8 = false ∧ selectorWf 0x22#8 = false ∧ selectorWf 0x34#8 = false ∧
    selectorWf 0x44#8 = false ∧ selectorWf 0xFF#8 = false := by decide

/-- spec/30_encoding.md R65: widths other than 8, 16 and 32. -/
theorem test_bitsWf_refuses :
    bitsWf 0#6 = false ∧ bitsWf 12#6 = false ∧ bitsWf 33#6 = false ∧ bitsWf 63#6 = false ∧ bitsWf 32#6 = true := by
  decide

/-- spec/30_encoding.md R66: a `dlc` other than 8, a command above 31, a device id above 127. -/
theorem test_frameWf_refuses :
    frameWf { fields 3#8 0#16 1#8 with dlc := 9#8 } = false ∧ frameWf { fields 32#8 0#16 1#8 with dlc := 8#8 } = false ∧
    frameWf { fields 3#8 0#16 128#8 with dlc := 8#8 } = false ∧
    frameWf { fields 31#8 0#16 127#8 with dlc := 8#8 } = true := by decide

/-- spec/10_state.md R27: the buffer port holds up to 255 bytes. -/
theorem test_bufferWf_refuses :
    bufferWf (List.replicate 256 0#8) = false ∧ bufferWf (List.replicate 255 0#8) = true := by decide +kernel

/-- A request with an unassigned selector is not well formed. -/
theorem test_requestWf_refuses :
    requestWf { blank with op := 0x02#8 } = false ∧ requestWf blank = true := by decide

/-- spec/10_state.md R27: `in.len` of the longest buffer the port holds. -/
theorem test_len_of_full_port : Request.len { blank with buf := ⟨List.replicate 255 0#8, by decide +kernel⟩ } = 0xFF#8 := by
  decide +kernel

/-- spec/00_scope.md R12, one broken condition a clause: width, bound, order, span (Q30), scaled span (Q31). -/
theorem test_rangeValid_refuses :
    rangeValid binary64 ⟨0xBFF0000000000000#64, 0x3FF0000000000000#64, 12#6⟩ = false ∧
    rangeValid binary64 ⟨0xFFF0000000000000#64, 0x3FF0000000000000#64, 16#6⟩ = false ∧
    rangeValid binary64 ⟨0#64, 0#64, 16#6⟩ = false ∧
    rangeValid binary64 ⟨0xFFE1CCF385EBC8A0#64, 0x7FE1CCF385EBC8A0#64, 16#6⟩ = false ∧
    rangeValid binary64 ⟨0xFFDC7B1F3CAC7433#64, 0x7FDC7B1F3CAC7433#64, 16#6⟩ = false := by decide +kernel

/-- spec/00_scope.md R7: one range that is not valid makes the configuration ill-formed. -/
theorem test_cfgWellFormed_refuses :
    cfgWellFormed binary64 { State.reset.cfg with kdRange := ⟨0#64, 0#64, 16#6⟩ } = false ∧
    cfgWellFormed binary64 State.reset.cfg = true := by decide +kernel

/-! ## Decoding: every constructor's selector, written out from spec/30_encoding.md R61 -/

/-- Family 0. -/
theorem test_decode_codec : decode 0b00000000#8 = .ok .quant ∧ decode 0b00000001#8 = .ok .dequant := by decide

/-- Family 1, direction 0. -/
theorem test_decode_pack :
    decode 0b00010000#8 = .ok .packU8 ∧ decode 0b00010001#8 = .ok .packS8 ∧ decode 0b00010010#8 = .ok .packU16 ∧
    decode 0b00010011#8 = .ok .packS16 ∧ decode 0b00010100#8 = .ok .packU32 ∧ decode 0b00010101#8 = .ok .packS32 ∧
    decode 0b00010110#8 = .ok .packF32 ∧ decode 0b00010111#8 = .ok .packBadtag := by decide

/-- Family 1, direction 1. -/
theorem test_decode_unpack :
    decode 0b00011000#8 = .ok .unpackU8 ∧ decode 0b00011001#8 = .ok .unpackS8 ∧ decode 0b00011010#8 = .ok .unpackU16 ∧
    decode 0b00011011#8 = .ok .unpackS16 ∧ decode 0b00011100#8 = .ok .unpackU32 ∧
    decode 0b00011101#8 = .ok .unpackS32 ∧ decode 0b00011110#8 = .ok .unpackF32 ∧
    decode 0b00011111#8 = .ok .unpackBadtag := by decide

/-- Families 2 and 3. -/
theorem test_decode_frame :
    decode 0b00100000#8 = .ok .aidPack ∧ decode 0b00100001#8 = .ok .aidUnpack ∧ decode 0b00110000#8 = .ok .envEnc ∧
    decode 0b00110001#8 = .ok .envDec ∧ decode 0b00110010#8 = .ok .frameEnc ∧ decode 0b00110011#8 = .ok .frameDec := by
  decide

/-- Family 4. -/
theorem test_decode_classifier :
    decode 0b01000000#8 = .ok .fltStatus ∧ decode 0b01000001#8 = .ok .fltReport ∧ decode 0b01000010#8 = .ok .tlmDec ∧
    decode 0b01000011#8 = .ok .rxDecode := by decide

/-- O1 and O2: unassigned selectors are rejected by name. -/
theorem test_decode_rejects :
    decode 0x02#8 = .error (.illegalSelector 0x02#8) ∧ decode 0x0F#8 = .error (.illegalSelector 0x0F#8) ∧
    decode 0x34#8 = .error (.illegalSelector 0x34#8) ∧ decode 0x50#8 = .error (.illegalSelector 0x50#8) ∧
    decode 0xFF#8 = .error (.illegalSelector 0xFF#8) := by decide

/-- A table word gives its selector, and bits above the selector byte give nothing. -/
theorem test_decodeTableWord :
    decodeTableWord 8 0x43 = some .rxDecode ∧ decodeTableWord 8 0x02 = none ∧ decodeTableWord 16 0x143 = none := by
  decide

/-! ## The codec -/

/-- Q1: truncation, not rounding (32767.5). -/
theorem test_quant_truncates : answer .quant (quantPos 0#64) = some ⟨.ok, { u := some 32767#32 }⟩ := by decide +kernel

/-- Q32: the range is checked before NaN. -/
theorem test_quant_range_before_nan :
    answer .quant { blank with x := 0x7FF8000000000000#64, bits := 16#6 } =
      some ⟨.invalidRange, OutPorts.undefined⟩ := by decide +kernel

/-- DQ7. -/
theorem test_dequant_one :
    answer .dequant (dequantPos 1#32) = some ⟨.ok, { y := some 0xC028FFCDFFCDFFCE#64 }⟩ := by decide +kernel

/-- DQ4: the code is clamped, unsigned. -/
theorem test_dequant_clamps :
    answer .dequant (dequantPos 0xFFFFFFFF#32) = some ⟨.ok, { y := some 0x4029000000000000#64 }⟩ := by decide +kernel

/-! ## The scalars -/

/-- K2 and K22. -/
theorem test_packU8 :
    answer .packU8 (scalar 255#32) = some ⟨.ok, { b4 := some ⟨0xFF#8, 0#8, 0#8, 0#8⟩ }⟩ ∧
    answer .packU8 (scalar 256#32) = some ⟨.valueOutOfRange, OutPorts.undefined⟩ := by decide +kernel

/-- K4 and K25: the pad is zero for a negative value; -129 does not fit. -/
theorem test_packS8 :
    answer .packS8 (scalar 0xFFFFFF80#32) = some ⟨.ok, { b4 := some ⟨0x80#8, 0#8, 0#8, 0#8⟩ }⟩ ∧
    answer .packS8 (scalar 0xFFFFFF7F#32) = some ⟨.valueOutOfRange, OutPorts.undefined⟩ := by decide +kernel

/-- K8 and K26. -/
theorem test_packU16 :
    answer .packU16 (scalar 0x7005#32) = some ⟨.ok, { b4 := some ⟨0x05#8, 0x70#8, 0#8, 0#8⟩ }⟩ ∧
    answer .packU16 (scalar 0x10000#32) = some ⟨.valueOutOfRange, OutPorts.undefined⟩ := by decide +kernel

/-- K11 and K27. -/
theorem test_packS16 :
    answer .packS16 (scalar 0xFFFFFFFE#32) = some ⟨.ok, { b4 := some ⟨0xFE#8, 0xFF#8, 0#8, 0#8⟩ }⟩ ∧
    answer .packS16 (scalar 0x8000#32) = some ⟨.valueOutOfRange, OutPorts.undefined⟩ := by decide +kernel

/-- K14, K15, K18. -/
theorem test_pack_full_width :
    answer .packU32 (scalar 0x12345678#32) = some ⟨.ok, { b4 := some ⟨0x78#8, 0x56#8, 0x34#8, 0x12#8⟩ }⟩ ∧
    answer .packS32 (scalar 0x80000000#32) = some ⟨.ok, { b4 := some ⟨0#8, 0#8, 0#8, 0x80#8⟩ }⟩ ∧
    answer .packF32 (scalar 0x3F800000#32) = some ⟨.ok, { b4 := some ⟨0#8, 0#8, 0x80#8, 0x3F#8⟩ }⟩ := by
  decide +kernel

/-- K33 and K34. -/
theorem test_badtag :
    answer .packBadtag (scalar 0#32) = some ⟨.unknownTypeTag, OutPorts.undefined⟩ ∧
    answer .unpackBadtag (bytes 0#8 0#8 0#8 0#8) = some ⟨.unknownTypeTag, OutPorts.undefined⟩ := by decide +kernel

/-- K29 and K31: pad bytes ignored; zero extension. -/
theorem test_unpack_unsigned :
    answer .unpackU8 (bytes 0xAB#8 0xCD#8 0xEF#8 0x01#8) = some ⟨.ok, { val := some 0xAB#32 }⟩ ∧
    answer .unpackU16 (bytes 0xFE#8 0xFF#8 0#8 0#8) = some ⟨.ok, { val := some 0xFFFE#32 }⟩ := by decide +kernel

/-- K32 and K30: sign extension. -/
theorem test_unpack_signed :
    answer .unpackS8 (bytes 0xFE#8 0xFF#8 0#8 0#8) = some ⟨.ok, { val := some 0xFFFFFFFE#32 }⟩ ∧
    answer .unpackS16 (bytes 0xFE#8 0xFF#8 0x12#8 0x34#8) = some ⟨.ok, { val := some 0xFFFFFFFE#32 }⟩ := by
  decide +kernel

/-- K14, K15, K21, unpacked. -/
theorem test_unpack_full_width :
    answer .unpackU32 (bytes 0x78#8 0x56#8 0x34#8 0x12#8) = some ⟨.ok, { val := some 0x12345678#32 }⟩ ∧
    answer .unpackS32 (bytes 0#8 0#8 0#8 0x80#8) = some ⟨.ok, { val := some 0x80000000#32 }⟩ ∧
    answer .unpackF32 (bytes 0#8 0#8 0xC0#8 0x7F#8) = some ⟨.ok, { val := some 0x7FC00000#32 }⟩ := by decide +kernel

/-! ## The arbitration ID -/

/-- A3 in both variants. -/
theorem test_aidPack :
    answerA .aidPack (fields 1#8 0x7FFF#16 5#8) = some ⟨.ok, { h := some ⟨0x01#8, 0x7F#8, 0xFF#8, 0x05#8⟩ }⟩ ∧
    answer .aidPack (fields 1#8 0x7FFF#16 5#8) = some ⟨.ok, { h := some ⟨0x0B#8, 0xFF#8, 0xF8#8, 0x2C#8⟩ }⟩ := by
  decide +kernel

/-- The two refusals of section 2.4, at their boundaries. -/
theorem test_aidPack_refuses :
    answer .aidPack (fields 32#8 0#16 1#8) = some ⟨.illFormedFrame, OutPorts.undefined⟩ ∧
    answer .aidPack (fields 3#8 0#16 128#8) = some ⟨.illFormedFrame, OutPorts.undefined⟩ := by decide +kernel

/-- A12 and A13: the bits outside the ID are ignored. -/
theorem test_aidUnpack :
    answerA .aidUnpack (header 0xE3#8 0x00#8 0xFD#8 0x01#8) =
      some ⟨.ok, { command := some 3#5, senderTag := some 0x00FD#16, deviceId := some 1#8 }⟩ ∧
    answer .aidUnpack (header 0x18#8 0x07#8 0xE8#8 0x08#8) =
      some ⟨.ok, { command := some 3#5, senderTag := some 0x00FD#16, deviceId := some 1#8 }⟩ := by decide +kernel

/-- A10 and A11: a device id above 127 is returned as found. -/
theorem test_aidUnpack_wide_device_id :
    answerA .aidUnpack (header 0x02#8 0x80#8 0x01#8 0xFD#8) =
      some ⟨.ok, { command := some 2#5, senderTag := some 0x8001#16, deviceId := some 0xFD#8 }⟩ ∧
    answer .aidUnpack (header 0x14#8 0x00#8 0x0F#8 0xEC#8) =
      some ⟨.ok, { command := some 2#5, senderTag := some 0x8001#16, deviceId := some 0xFD#8 }⟩ := by decide +kernel

/-! ## The frame -/

/-- E1 and E2. -/
theorem test_envEnc :
    answerA .envEnc { header 0x03#8 0x00#8 0xFD#8 0x01#8 with dlc := 8#8 } =
      some ⟨.ok, { env := some ([0xAA#8, 0x01#8, 0x00#8, 0x08#8, 0x03#8, 0x00#8, 0xFD#8, 0x01#8] ++ zeros),
                   envLen := some 16#8 }⟩ ∧
    answer .envEnc { header 0x18#8 0x07#8 0xE8#8 0x0C#8 with dlc := 8#8 } =
      some ⟨.ok, { env := some ([0x41#8, 0x54#8, 0x18#8, 0x07#8, 0xE8#8, 0x0C#8, 0x08#8] ++ zeros ++ [0x0D#8, 0x0A#8]),
                   envLen := some 17#8 }⟩ := by decide +kernel

/-- E15. -/
theorem test_envEnc_refuses :
    answerA .envEnc (header 0x03#8 0x00#8 0xFD#8 0x01#8) = some ⟨.illFormedFrame, OutPorts.undefined⟩ := by
  decide +kernel

/-- E13 and E14: nothing but the length and the DLC marker is checked. -/
theorem test_envDec :
    answerA .envDec { blank with
        buf := ⟨[0#8, 0#8, 0#8, 0x08#8, 0x03#8, 0x00#8, 0xFD#8, 0x01#8] ++ zeros, by decide⟩ } =
      some ⟨.ok, { dlc := some 8#8, h := some ⟨0x03#8, 0x00#8, 0xFD#8, 0x01#8⟩, payload := some blank.payload }⟩ ∧
    answer .envDec { blank with
        buf := ⟨[0xFF#8, 0xFF#8, 0x18#8, 0x07#8, 0xE8#8, 0x0C#8, 0x08#8] ++ zeros ++ [0xFF#8, 0xFF#8], by decide⟩ } =
      some ⟨.ok, { dlc := some 8#8, h := some ⟨0x18#8, 0x07#8, 0xE8#8, 0x0C#8⟩, payload := some blank.payload }⟩ := by
  decide +kernel

/-- E5, E7, E8 and E10. -/
theorem test_envDec_rejects :
    answerA .envDec { blank with buf := ⟨[], by decide⟩ } = some ⟨.malformedFrame, OutPorts.undefined⟩ ∧
    answerA .envDec { blank with buf := ⟨List.replicate 17 8#8, by decide⟩ } = some ⟨.malformedFrame, OutPorts.undefined⟩ ∧
    answerA .envDec { blank with
        buf := ⟨[0xAA#8, 0x01#8, 0x00#8, 0x07#8, 0x03#8, 0x00#8, 0xFD#8, 0x01#8] ++ zeros, by decide⟩ } =
      some ⟨.malformedFrame, OutPorts.undefined⟩ ∧
    answer .envDec { blank with buf := ⟨List.replicate 18 8#8, by decide⟩ } = some ⟨.malformedFrame, OutPorts.undefined⟩ := by
  decide +kernel

/-- F4. -/
theorem test_frameEnc :
    answer .frameEnc { payload 0xA0#8 0x2A#8 0x84#8 0x43#8 0x7F#8 0xFF#8 0x33#8 0x33#8 with
        dlc := 8#8, command := 1#8, senderTag := 0xBFFF#16, deviceId := 5#8 } =
      some ⟨.ok, { env := some [0x41#8, 0x54#8, 0x0D#8, 0xFF#8, 0xF8#8, 0x2C#8, 0x08#8, 0xA0#8, 0x2A#8, 0x84#8, 0x43#8,
                                0x7F#8, 0xFF#8, 0x33#8, 0x33#8, 0x0D#8, 0x0A#8],
                   envLen := some 17#8 }⟩ := by decide +kernel

/-- E16 and E17. -/
theorem test_frameEnc_refuses :
    answer .frameEnc { fields 3#8 0x00FD#16 200#8 with dlc := 8#8 } = some ⟨.illFormedFrame, OutPorts.undefined⟩ ∧
    answerA .frameEnc { fields 3#8 0x00FD#16 1#8 with dlc := 9#8 } = some ⟨.illFormedFrame, OutPorts.undefined⟩ := by
  decide +kernel

/-- E18. -/
theorem test_frameDec :
    answerA .frameDec { blank with
        buf := ⟨[0xAA#8, 0x01#8, 0x00#8, 0x08#8, 0x02#8, 0x80#8, 0x01#8, 0xFD#8, 0x80#8, 0x00#8, 0x80#8, 0x00#8, 0x80#8,
                0x00#8, 0x00#8, 0x00#8], by decide⟩ } =
      some ⟨.ok, { dlc := some 8#8, command := some 2#5, senderTag := some 0x8001#16, deviceId := some 0xFD#8,
                   payload := some ⟨0x80#8, 0x00#8, 0x80#8, 0x00#8, 0x80#8, 0x00#8, 0x00#8, 0x00#8⟩ }⟩ := by
  decide +kernel

/-- E12: the header bytes are intact and still no field is returned. -/
theorem test_frameDec_rejects :
    answer .frameDec { blank with
        buf := ⟨[0x41#8, 0x54#8, 0x18#8, 0x07#8, 0xE8#8, 0x0C#8, 0x00#8] ++ zeros ++ [0x0D#8, 0x0A#8], by decide⟩ } =
      some ⟨.malformedFrame, OutPorts.undefined⟩ := by decide +kernel

/-! ## The classifier -/

/-- T11 and T12. -/
theorem test_fltStatus :
    answer .fltStatus { blank with statusWord := 0x0086#16 } =
      some ⟨.ok, { faultSet := some 0b000110#6, fault := some true, modeRaw := some 2#2, mode := some .run }⟩ ∧
    answer .fltStatus { blank with statusWord := 0xFF00#16 } =
      some ⟨.ok, { faultSet := some 0#6, fault := some false, modeRaw := some 0#2, mode := some .reset }⟩ := by
  decide +kernel

/-- T10: the reserved mode value. -/
theorem test_fltStatus_reserved_mode :
    answer .fltStatus { blank with statusWord := 0x00C0#16 } =
      some ⟨.ok, { faultSet := some 0#6, fault := some false, modeRaw := some 3#2, mode := some .reserved3 }⟩ := by
  decide +kernel

/-- T15. -/
theorem test_fltReport :
    answer .fltReport (payload 0x80#8 0x05#8 0x01#8 0x00#8 0x01#8 0x00#8 0x00#8 0x00#8) =
      some ⟨.ok, { repUncal := some true, repOverloadMask := some 0x05#8, repOverload := some true,
                   repPhaseAOc := some true, repOvertempWarn := some true }⟩ := by decide +kernel

/-- T16: only unassigned bits set. -/
theorem test_fltReport_ignores_unassigned :
    answer .fltReport (payload 0x7F#8 0x00#8 0xFE#8 0xFF#8 0xFE#8 0xFF#8 0xFF#8 0xFF#8) =
      some ⟨.ok, { repUncal := some false, repOverloadMask := some 0#8, repOverload := some false,
                   repPhaseAOc := some false, repOvertempWarn := some false }⟩ := by decide +kernel

/-- T20, with the ranges of instance G6 as the spec's row has them. -/
theorem test_tlmDec :
    answer .tlmDec (payload 0xA0#8 0x2A#8 0x84#8 0x43#8 0xBF#8 0xFF#8 0x01#8 0x6D#8) =
      some ⟨.ok, { posU := some 0xA02A#16, velU := some 0x8443#16, trqU := some 0xBFFF#16, tempRaw := some 365#16,
                   pos := some 0x4009214D214D214C#64, vel := some 0x3FEFFA5FFA5FFA60#64,
                   trq := some 0x4017FFE7FFE7FFE8#64, tempC := some 0x4042400000000000#64 }⟩ := by decide +kernel

/-- T21: 25.3 degrees. -/
theorem test_tlmDec_temperature :
    (answer .tlmDec (payload 0x80#8 0x00#8 0x80#8 0x00#8 0x80#8 0x00#8 0x00#8 0xFD#8)).map (fun r => r.out.tempC) =
      some (some 0x40394CCCCCCCCCCD#64) := by decide +kernel

/-- T27: a fault report, the reply id by the FIRMWARE route. -/
theorem test_rxDecode_report :
    answerA .rxDecode { payload 0x80#8 0x05#8 0x01#8 0x00#8 0x01#8 0x00#8 0x00#8 0x00#8 with
        command := 21#8, senderTag := 0x0005#16, deviceId := 0xFD#8 } =
      some ⟨.ok, { kind := some .faultReport, replyId := some 5#8, repUncal := some true,
                   repOverloadMask := some 0x05#8, repOverload := some true, repPhaseAOc := some true,
                   repOvertempWarn := some true }⟩ := by decide +kernel

/-- The frame of T27a and T27b. -/
def motionReply : Request :=
  { payload 0x80#8 0x00#8 0x80#8 0x00#8 0x80#8 0x00#8 0x00#8 0x00#8 with
    command := 2#8, senderTag := 0x8001#16, deviceId := 0xFD#8 }

/-- T27a and T27b: the two routes disagree on this frame. -/
theorem test_rxDecode_routes :
    (answerA .rxDecode motionReply).map (fun q => (q.out.replyId, q.out.faultSet)) = some (some 1#8, some 0#6) ∧
    (answerA .rxDecode motionReply).map (fun q => (q.out.mode, q.out.pos)) =
      some (some .run, some 0x3F29001900190000#64) ∧
    (answer .rxDecode motionReply).map (fun q => (q.out.replyId, q.out.faultSet)) =
      some (some 0xFD#8, some 0b000001#6) ∧
    (answer .rxDecode motionReply).map (fun q => (q.out.mode, q.out.pos)) =
      some (some .reset, some 0x3F29001900190000#64) := by decide +kernel

/-! ## The step -/

/-- The step of a table word runs that operation as the first after reset (P3 step 3). -/
theorem test_withFetchWord :
    pending (step (State.reset.withFetchWord 8 0x17)) = some ⟨.unknownTypeTag, OutPorts.undefined⟩ := by decide +kernel

/-- O1: an unassigned selector. -/
theorem test_illegal_selector :
    pending (step (presenting 0x02#8)) = some ⟨.illegalOp, OutPorts.undefined⟩ := by decide +kernel

/-! ## Witnesses: the hypotheses of each statement can be met -/

theorem witness_StepRunsThePresentedOperation :
    (presenting 0x43#8).host = [.present { blank with op := 0x43#8 }] ∧ (presenting 0x43#8).resp = none ∧
    decode 0x43#8 = .ok .rxDecode := by decide +kernel

/-- The ends of the four ranges of unassigned selectors. -/
theorem witness_UnassignedSelectorAnswersIllegalOp (op : Byte)
    (h : op ∈ [0x02#8, 0x0F#8, 0x22#8, 0x2F#8, 0x34#8, 0x3F#8, 0x44#8, 0xFF#8]) :
    pending (step (presenting op)) = some ⟨.illegalOp, OutPorts.undefined⟩ ∧
    ((0x02 ≤ op.toNat ∧ op.toNat ≤ 0x0F) ∨ (0x22 ≤ op.toNat ∧ op.toNat ≤ 0x2F) ∨
      (0x34 ≤ op.toNat ∧ op.toNat ≤ 0x3F) ∨ 0x44 ≤ op.toNat) := by
  simp only [List.mem_cons, List.not_mem_nil, or_false] at h
  rcases h with h | h | h | h | h | h | h | h <;> subst h <;> decide +kernel

theorem witness_SelectorDecodeInvertsEncode :
    decode 0x43#8 = .ok .rxDecode ∧ selectorWf 0x02#8 = false ∧ selectorWf 0xFF#8 = false := by decide

theorem witness_ResetSamplesTheStraps :
    ({ State.reset with host := [.assertReset Config.instanceStraps] } : State).host =
      .assertReset Config.instanceStraps :: [] := rfl

theorem witness_OverlappingRequestIsRefused :
    ({ presenting 0x00#8 with resp := some ⟨.illegalOp, OutPorts.undefined⟩ } : State).resp =
      some ⟨.illegalOp, OutPorts.undefined⟩ ∧
    step { presenting 0x00#8 with resp := some ⟨.illegalOp, OutPorts.undefined⟩ } = .refused .overlappingRequest :=
  ⟨rfl, rfl⟩

/-- Each of the four clauses has its state. -/
theorem witness_TakingClearsThePortsAndIdlingKeepsThem :
    State.reset.host = [] ∧ ({ State.reset with host := [.idle] } : State).host = [.idle] ∧
    ({ State.reset with host := [.take], resp := some ⟨.ok, {}⟩ } : State).resp = some ⟨.ok, {}⟩ ∧
    ({ State.reset with host := [.take] } : State).resp = none := by decide +kernel

/-- Two states that agree on what `UNPACK.U8` reads and differ elsewhere. -/
theorem witness_ResponseDependsOnlyOnWhatTheOperationReads :
    readView .unpackU8 (bytes 1#8 2#8 3#8 4#8) = readView .unpackU8 { bytes 1#8 2#8 3#8 4#8 with val := 7#32 } ∧
    cfgView .unpackU8 (block .a .literal blank).cfg = cfgView .unpackU8 (block .b .firmware blank).cfg := by
  decide +kernel

/-- A response that is `OK` and one that is not. -/
theorem witness_OkResponseDefinesExactlyTheOperationsPorts :
    (answer .packU8 (scalar 255#32)).map Response.status = some .ok ∧
    (answer .packU8 (scalar 256#32)).map Response.status = some .valueOutOfRange := by decide +kernel

theorem witness_StatusesAreExactlyThoseOfTheTable :
    Status.illFormedFrame ∈ statusesOf .aidPack ∧ cfgWellFormed binary64 State.reset.cfg = true ∧
    selectorWf (block .b .literal { blank with op := 0x05#8 }).inp.op = false := by decide +kernel

/-- Presenting a request changes no configuration field. -/
theorem witness_OnlyResetChangesTheConfiguration :
    ∃ t, step (presenting 0x40#8) = .next t ∧
      ∀ straps rest, (presenting 0x40#8).host ≠ .assertReset straps :: rest :=
  ⟨_, rfl, by intro _ _; simp [presenting]⟩

theorem witness_EveryStepKeepsTheInvariant : State.reset.Inv ∧ ∃ t, step State.reset = .next t :=
  ⟨⟨(fun r (h : none = some r) => nomatch h), (fun r (h : r ∈ []) => nomatch h),
    (fun r (h : none = some r) => nomatch h), rfl⟩, _, rfl⟩

theorem witness_NoPartialResultOnFailure :
    (presenting 0x17#8).resp = none ∧ ∃ t, step (presenting 0x17#8) = .next t ∧
      t.resp = some ⟨.unknownTypeTag, OutPorts.undefined⟩ ∧ Status.unknownTypeTag ≠ .ok :=
  ⟨rfl, _, rfl, rfl, by decide⟩

/-- A conversation of two requests, the first of which is refused. -/
theorem witness_ConversationAnswersAsFreshBlocksDo :
    let rs := [{ scalar 256#32 with op := 0x10#8 }, { scalar 255#32 with op := 0x10#8 }]
    State.reset.Quiet ∧ ({ State.reset with host := conversation rs } : State).host = conversation rs ++ [] ∧
    freshAnswer State.reset.cfg { scalar 256#32 with op := 0x10#8 } = some ⟨.valueOutOfRange, OutPorts.undefined⟩ :=
  ⟨⟨rfl, rfl⟩, rfl, by decide +kernel⟩

/-- The range POS is valid in the written-out sense, zero and NaN are operands of the two kinds, and a range of width 12
is not valid. -/
theorem witness_InvalidRangeAndNaNAreRefusedInOrder :
    rangeValid binary64 (quantPos 0#64).range = true ∧ (quantPos 0#64).bits.toNat = 16 ∧
    fpIsFinite (quantPos 0#64).min = true ∧ fpIsFinite (quantPos 0#64).max = true ∧
    fpLt (quantPos 0#64).min (quantPos 0#64).max = true ∧
    fpIsFinite (fpSub (quantPos 0#64).max (quantPos 0#64).min) = true ∧
    fpIsFinite (fpMul (fpSub (quantPos 0#64).max (quantPos 0#64).min) (fpOfNat (2 ^ 16 - 1))) = true ∧
    fpIsNaN (quantPos 0#64).x = false ∧ fpIsNaN (quantPos 0x7FF8000000000000#64).x = true ∧
    rangeValid binary64 { (quantPos 0#64).range with bits := 12#6 } = false := by decide +kernel

theorem witness_QuantDeliversTheTruncatedCode :
    rangeValid binary64 (block .b .literal (quantPos 0#64)).inp.range = true ∧
    fpIsNaN (block .b .literal (quantPos 0#64)).inp.x = false ∧
    fpIsNaN (block .b .literal (quantPos 0x7FF8000000000000#64)).inp.x = true ∧
    rangeValid binary64 (block .b .literal blank).inp.range = false := by decide +kernel

/-- Q6 and Q7: both infinities. -/
theorem witness_QuantClampsOutOfRangeOperands :
    fpLt (quantPos 0x7FF0000000000000#64).max 0x7FF0000000000000#64 = true ∧
    fpLt 0xFFF0000000000000#64 (quantPos 0xFFF0000000000000#64).min = true ∧
    answer .quant (quantPos 0x7FF0000000000000#64) = some ⟨.ok, { u := some 65535#32 }⟩ ∧
    answer .quant (quantPos 0xFFF0000000000000#64) = some ⟨.ok, { u := some 0#32 }⟩ := by decide +kernel

/-- The minimum itself, and -0.0 over the minimum 0.0 (Q24). -/
theorem witness_QuantAtOrBelowMinimumIsZero :
    fpLt (quantPos 0xC029000000000000#64).min 0xC029000000000000#64 = false ∧
    rangeValid binary64 ⟨0#64, 0x3FF0000000000000#64, 8#6⟩ = true ∧ fpIsNaN 0x8000000000000000#64 = false ∧
    fpLt 0#64 0x8000000000000000#64 = false := by decide +kernel

theorem witness_DequantDeliversTheFormula :
    rangeValid binary64 (block .b .literal (dequantPos 1#32)).inp.range = true ∧
    rangeValid binary64 (block .b .literal blank).inp.range = false := by decide +kernel

/-- The code 0 in a range whose minimum is -0.0, and the smallest code above `M`. -/
theorem witness_DequantAtZeroAndAboveTheTop :
    rangeValid binary64 ⟨0x8000000000000000#64, 0x3FF0000000000000#64, 8#6⟩ = true ∧
    (2 : Nat) ^ (8#6 : BitVec 6).toNat - 1 < (256#32 : Word32).toNat ∧
    rangeValid binary64 (dequantPos 0#32).range = true := by decide +kernel

theorem witness_QuantAndDequantAreMonotone :
    (quantPos 0#64).range = (quantPos 0x3FF0000000000000#64).range ∧
    rangeValid binary64 (quantPos 0#64).range = true ∧ fpIsNaN 0#64 = false ∧ fpIsNaN 0x3FF0000000000000#64 = false ∧
    fpLt 0x3FF0000000000000#64 0#64 = false ∧ (1#32 : Word32).toNat ≤ (2#32 : Word32).toNat := by decide +kernel

theorem witness_QuantizingADequantizedCodeCanLoseOne :
    (quantPos 0#64).range = ⟨0xC029000000000000#64, 0x4029000000000000#64, 16#6⟩ ∧ (dequantPos 1#32).u = 1#32 ∧
    (quantPos 0xC028FFCDFFCDFFCE#64).x = 0xC028FFCDFFCDFFCE#64 := by decide +kernel

/-- The last value accepted and the first refused, at both widths. -/
theorem witness_PackUnsignedAcceptsExactlyItsWidth :
    (255#32 : Word32).toNat ≤ 255 ∧ 255 < (256#32 : Word32).toNat ∧ (65535#32 : Word32).toNat ≤ 65535 ∧
    65535 < (65536#32 : Word32).toNat := by decide

/-- The ends of both signed ranges and their neighbours outside. -/
theorem witness_PackSignedAcceptsExactlyItsWidth :
    -128 ≤ (0xFFFFFF80#32 : Word32).toInt ∧ (0x7F#32 : Word32).toInt ≤ 127 ∧ (0xFFFFFF7F#32 : Word32).toInt < -128 ∧
    127 < (0x80#32 : Word32).toInt ∧ -32768 ≤ (0xFFFF8000#32 : Word32).toInt ∧
    (0x7FFF#32 : Word32).toInt ≤ 32767 ∧ (0xFFFF7FFF#32 : Word32).toInt < -32768 ∧
    32767 < (0x8000#32 : Word32).toInt := by decide

theorem witness_PackFullWidthIsLittleEndian (i : Instr) (h : i ∈ [Instr.packU32, .packS32, .packF32]) :
    i = .packU32 ∨ i = .packS32 ∨ i = .packF32 := by simpa using h

theorem witness_UnpackReadsTheLittleEndianNumber (i : Instr) (h : i ∈ [Instr.unpackU32, .unpackS32, .unpackF32]) :
    i = .unpackU32 ∨ i = .unpackS32 ∨ i = .unpackF32 := by simpa using h

/-- A pack and an unpack that meet the two clauses, the second on bytes that are and bytes that are not in the image. -/
theorem witness_ScalarRoundTripForEveryTag :
    answer (packOfTag (some .s8)) (scalar 0xFFFFFF80#32) = some ⟨.ok, { b4 := some ⟨0x80#8, 0#8, 0#8, 0#8⟩ }⟩ ∧
    answer (unpackOfTag (some .s8)) (bytes 0xFE#8 0#8 0#8 0#8) = some ⟨.ok, { val := some 0xFFFFFFFE#32 }⟩ ∧
    answer (unpackOfTag (some .s8)) (bytes 0xFE#8 0xFF#8 0#8 0#8) = some ⟨.ok, { val := some 0xFFFFFFFE#32 }⟩ := by
  decide +kernel

/-- Both variants, both boundaries and both refusals. -/
theorem witness_AidPackBuildsTheHeaderBytes :
    (31#8 : Byte).toNat ≤ 31 ∧ (127#8 : Byte).toNat ≤ 127 ∧ 31 < (32#8 : Byte).toNat ∧ 127 < (128#8 : Byte).toNat ∧
    (block .a .literal blank).cfg.variant = .a ∧ (block .b .literal blank).cfg.variant = .b := by decide

theorem witness_AidUnpackReadsTheFields :
    (block .a .literal blank).cfg.variant = .a ∧ (block .b .literal blank).cfg.variant = .b := by decide

/-- A1 in both variants: a header in the image, with the fixed bits it must have. -/
theorem witness_AidPackImageIsExactlyTheFixedBits :
    answerA .aidPack (fields 3#8 0x00FD#16 1#8) = some ⟨.ok, { h := some ⟨0x03#8, 0x00#8, 0xFD#8, 0x01#8⟩ }⟩ ∧
    answer .aidPack (fields 3#8 0x00FD#16 1#8) = some ⟨.ok, { h := some ⟨0x18#8, 0x07#8, 0xE8#8, 0x0C#8⟩ }⟩ ∧
    (be32 ⟨0x03#8, 0x00#8, 0xFD#8, 0x01#8⟩).extractLsb' 29 3 = 0#3 ∧
    (be32 ⟨0x18#8, 0x07#8, 0xE8#8, 0x0C#8⟩).extractLsb' 0 3 = 0b100#3 := by decide +kernel

/-- A4: the largest triple, packed and unpacked in variant B. -/
theorem witness_AidPackAndUnpackAreInverse :
    answer .aidPack (fields 31#8 0xFFFF#16 127#8) = some ⟨.ok, { h := some ⟨0xFF#8, 0xFF#8, 0xFB#8, 0xFC#8⟩ }⟩ ∧
    answer .aidUnpack (header 0xFF#8 0xFF#8 0xFB#8 0xFC#8) =
      some ⟨.ok, { command := some 31#5, senderTag := some 0xFFFF#16, deviceId := some 127#8 }⟩ ∧
    (31#8 : Byte) = (31#5 : BitVec 5).setWidth 8 := by decide +kernel

theorem witness_EnvEncLaysOutTheEnvelope :
    ({ blank with dlc := 8#8 } : Request).dlc = 8#8 ∧ blank.dlc ≠ 8#8 ∧ (block .a .literal blank).cfg.variant = .a ∧
    (block .b .literal blank).cfg.variant = .b := by decide

/-- Buffers of the right length with and without the marker, one byte short and one byte long, in both variants. -/
theorem witness_EnvDecChecksLengthAndMarkerOnly :
    ([1#8, 2#8, 3#8, 8#8] ++ blank.h.toList ++ blank.payload.toList).length = 16 ∧
    ([1#8, 2#8] ++ blank.h.toList ++ [8#8] ++ blank.payload.toList ++ [3#8, 4#8]).length = 17 ∧
    (List.replicate 16 0#8)[3]? ≠ some 8#8 ∧ (List.replicate 17 0#8)[6]? ≠ some 8#8 ∧
    (List.replicate 15 8#8).length ≠ 16 ∧ (List.replicate 18 8#8).length ≠ 17 := by decide

theorem witness_MalformedFrameExactlyOnLengthOrMarker :
    (List.replicate 16 8#8).length = 16 ∧ (List.replicate 16 8#8)[3]? = some 8#8 ∧
    (List.replicate 17 8#8).length = 17 ∧ (List.replicate 17 8#8)[6]? = some 8#8 ∧
    (List.replicate 16 8#8).length ≠ 17 := by decide

/-- A frame that is encoded, and one refused for each field. -/
theorem witness_FrameEncIsAidPackThenEnvEnc :
    (answer .frameEnc { fields 31#8 0#16 127#8 with dlc := 8#8 }).map Response.status = some .ok ∧
    (answer .frameEnc { fields 32#8 0#16 127#8 with dlc := 8#8 }).map Response.status = some .illFormedFrame ∧
    (answer .frameEnc { fields 31#8 0#16 128#8 with dlc := 8#8 }).map Response.status = some .illFormedFrame ∧
    (answer .frameEnc { fields 31#8 0#16 127#8 with dlc := 7#8 }).map Response.status = some .illFormedFrame := by
  decide +kernel

/-- A buffer both operations decode, and one both reject. -/
theorem witness_FrameDecIsEnvDecThenAidUnpack :
    (answer .envDec { blank with buf := ⟨List.replicate 17 8#8, by decide⟩ }).map Response.status = some .ok ∧
    (answer .aidUnpack (header 8#8 8#8 8#8 8#8)).map Response.status = some .ok ∧
    (answer .envDec { blank with buf := ⟨[], by decide⟩ }).map Response.status = some .malformedFrame := by decide +kernel

theorem witness_FrameRoundTripInBothVariants :
    let r := { fields 31#8 0xFFFF#16 127#8 with dlc := 8#8 }
    (block .a .literal r).cfg.variant = (block .a .firmware blank).cfg.variant ∧ (block .a .literal r).inp.dlc = 8#8 ∧
    (block .a .literal r).inp.command.toNat ≤ 31 ∧ (block .a .literal r).inp.deviceId.toNat ≤ 127 ∧
    (block .b .literal r).cfg.variant = (block .b .firmware blank).cfg.variant := by decide +kernel

/-- A receive buffer that holds the envelope the encoder gave (F4). -/
theorem witness_FrameRoundTripInBothVariants_buffer :
    ∃ b : RecvBuffer, answer .frameEnc { payload 0xA0#8 0x2A#8 0x84#8 0x43#8 0x7F#8 0xFF#8 0x33#8 0x33#8 with
        dlc := 8#8, command := 1#8, senderTag := 0xBFFF#16, deviceId := 5#8 } =
      some ⟨.ok, { env := some b.bytes, envLen := some 17#8 }⟩ :=
  ⟨⟨[0x41#8, 0x54#8, 0x0D#8, 0xFF#8, 0xF8#8, 0x2C#8, 0x08#8, 0xA0#8, 0x2A#8, 0x84#8, 0x43#8, 0x7F#8, 0xFF#8, 0x33#8,
     0x33#8, 0x0D#8, 0x0A#8], by decide⟩, test_frameEnc⟩

theorem witness_VariantMismatchIsNotDetected :
    (block .b .literal (header 0x03#8 0x00#8 0xFD#8 0x01#8)).cfg.variant = .b ∧
    (block .b .literal (header 0x03#8 0x00#8 0xFD#8 0x01#8)).inp.h = ⟨0x03#8, 0x00#8, 0xFD#8, 0x01#8⟩ := by decide

/-- The two responses are both delivered. -/
theorem witness_TheTwoFaultLayoutsShareNoPort :
    (answer .fltStatus blank).isSome = true ∧ (answer .fltReport blank).isSome = true := by decide +kernel

/-- The reset configuration has valid ranges, and a configuration with one that is not exists for each of the three. -/
theorem witness_TlmDecDequantizesTheFields :
    rangeValid binary64 State.reset.cfg.posRange = true ∧ rangeValid binary64 State.reset.cfg.velRange = true ∧
    rangeValid binary64 State.reset.cfg.trqRange = true ∧ rangeValid binary64 ⟨0#64, 0#64, 0#6⟩ = false := by
  decide +kernel

theorem witness_ScenarioPayloadDecodesToHalfAStep :
    State.reset.cfg.posRange = ⟨0xC029000000000000#64, 0x4029000000000000#64, 16#6⟩ ∧
    rangeValid binary64 State.reset.cfg.velRange = true ∧ rangeValid binary64 State.reset.cfg.trqRange = true := by
  decide +kernel

/-- A command on each path, and the parts each path is put together from. -/
theorem witness_RxDecodeRunsThePathOfTheCommand :
    (answer .tlmDec blank).map Response.status = some .ok ∧ (answer .fltStatus blank).map Response.status = some .ok ∧
    (answer .fltReport blank).map Response.status = some .ok ∧
    (answer .rxDecode (fields 3#8 0#16 0#8)).map Response.status = some .notDecodable ∧
    pending (exec .tlmDec { State.reset with cfg := { State.reset.cfg with velRange := ⟨0#64, 0#64, 0#6⟩ } }) =
      some ⟨.invalidRange, OutPorts.undefined⟩ := by decide +kernel

theorem witness_RxDecodeCompletes :
    (answer .rxDecode (fields 2#8 0#16 0#8)).map (fun r => r.out.kind) = some (some .motionStatus) ∧
    (answer .rxDecode (fields 21#8 0#16 0#8)).map (fun r => r.out.kind) = some (some .faultReport) := by decide +kernel

theorem witness_WellFormedConfigurationAlwaysDecodesTelemetry :
    cfgWellFormed binary64 State.reset.cfg = true := by decide +kernel

end Sys2Proof.Machine.Slice0
end

section
/-! The fixed-point codec: `QUANT` sees its operand through the clamp alone (spec/40_fixed_point_codec.md R109), and
`DEQUANT` delivers the written formula (R106). -/

namespace Sys2Proof.Machine

/-! ## The ordered comparison -/

@[simp] theorem fpLt_irrefl (a : F64) : fpLt a a = false := by simp [fpLt]

theorem fpLt_asymm {a b : F64} (h : fpLt a b = true) : fpLt b a = false := by
  simp only [fpLt, Bool.and_eq_true, decide_eq_true_eq] at h
  have hk : ¬ fpKey b < fpKey a := by omega
  simp [fpLt, hk]

theorem fpLt_trans {a b c : F64} (hab : fpLt a b = true) (hbc : fpLt b c = true) : fpLt a c = true := by
  simp only [fpLt, Bool.and_eq_true, decide_eq_true_eq] at *
  exact ⟨⟨hab.1.1, hbc.1.2⟩, hab.2.trans hbc.2⟩

/-! ## The clamp (R103) -/

/-- The bounds of a valid range are ordered by `fp.lt` itself. -/
theorem RangeFacts.min_lt_max {r : PhysicalRange} (h : RangeFacts r) : fpLt r.min r.max = true :=
  (fpLt_iff_units (not_nan_of_finite h.minFinite) (not_nan_of_finite h.maxFinite)).2 h.ordered

theorem clampPhysical_of_above {r : PhysicalRange} {x : F64} (hx : fpLt r.max x = true) :
    clampPhysical binary64 r x = r.max := by
  simp [clampPhysical, fpGt, hx]

theorem clampPhysical_of_below {r : PhysicalRange} (h : RangeFacts r) {x : F64} (hx : fpLt x r.min = true) :
    clampPhysical binary64 r x = r.min := by
  simp [clampPhysical, fpGt, hx, fpLt_asymm (fpLt_trans hx h.min_lt_max)]

theorem clampPhysical_max {r : PhysicalRange} (h : RangeFacts r) : clampPhysical binary64 r r.max = r.max := by
  simp [clampPhysical, fpGt, fpLt_asymm h.min_lt_max]

theorem clampPhysical_min {r : PhysicalRange} (h : RangeFacts r) : clampPhysical binary64 r r.min = r.min := by
  simp [clampPhysical, fpGt, fpLt_asymm h.min_lt_max]

/-! ## QUANT (R103, R109) -/

/-- The scaled value sees its operand through the clamp alone. -/
theorem quantScaled_congr {r : PhysicalRange} {x y : F64}
    (h : clampPhysical binary64 r x = clampPhysical binary64 r y) :
    quantScaled binary64 r x = quantScaled binary64 r y := by
  rw [quantScaled_eq, quantScaled_eq, h]

/-- `QUANT` on a valid range and a number completes with the floor of the scaled value. -/
theorem exec_quant_of_valid {s : State} (hv : rangeValid binary64 s.inp.range = true) (hx : fpIsNaN s.inp.x = false) :
    exec .quant s = .next (s.withResponse
      ⟨.ok, { u := some (BitVec.ofNat 32 (fpFloorToNat (quantScaled binary64 s.inp.range s.inp.x))) }⟩) := by
  rw [exec_eq, resultOf, quantResult, quantize_of_valid hv hx]
  rfl

/-- `QUANT` gives one code for two numbers that clamp to the same value. -/
theorem exec_quant_same_of_clamp_eq {s : State} {y : F64} (hv : rangeValid binary64 s.inp.range = true)
    (hx : fpIsNaN s.inp.x = false) (hy : fpIsNaN y = false)
    (h : clampPhysical binary64 s.inp.range s.inp.x = clampPhysical binary64 s.inp.range y) :
    ∃ u : Word32, exec .quant s = .next (s.withResponse ⟨.ok, { u := some u }⟩) ∧
      exec .quant { s with inp := { s.inp with x := y } } =
        .next ({ s with inp := { s.inp with x := y } }.withResponse ⟨.ok, { u := some u }⟩) := by
  refine ⟨_, exec_quant_of_valid hv hx, ?_⟩
  rw [quantScaled_congr h]
  exact exec_quant_of_valid (s := { s with inp := { s.inp with x := y } }) hv hy

/-- Settles O19: the operand and the bound it lies beyond clamp to that bound. -/
theorem quantClampsOutOfRangeOperands : Obligations.QuantClampsOutOfRangeOperands := by
  unfold Obligations.QuantClampsOutOfRangeOperands
  intro s hv hx
  have hr := rangeFacts_of_valid hv
  constructor
  · intro habove
    have hc := (clampPhysical_of_above (r := s.inp.range) habove).trans (clampPhysical_max hr).symm
    exact exec_quant_same_of_clamp_eq hv hx (not_nan_of_finite hr.maxFinite) hc
  · intro hbelow
    have hc := (clampPhysical_of_below hr hbelow).trans (clampPhysical_min hr).symm
    exact exec_quant_same_of_clamp_eq hv hx (not_nan_of_finite hr.minFinite) hc

/-! ## DEQUANT (R106) -/

/-- `DEQUANT` on a range that is not valid answers `InvalidRange`. -/
theorem exec_dequant_of_invalid {s : State} (hv : rangeValid binary64 s.inp.range = false) :
    exec .dequant s = .next (s.withResponse ⟨.invalidRange, OutPorts.undefined⟩) := by
  rw [exec_eq, resultOf, dequantize_of_invalid _ hv]
  rfl

/-- `DEQUANT` on a valid range completes with the dequantized value. -/
theorem exec_dequant_of_valid {s : State} (hv : rangeValid binary64 s.inp.range = true) :
    exec .dequant s =
      .next (s.withResponse ⟨.ok, { y := some (dequantValue binary64 s.inp.range s.inp.u) }⟩) := by
  rw [exec_eq, resultOf, dequantize_of_valid _ hv]
  rfl

/-- Settles O21: the dequantized value of a valid range, written out in the binary64 operations. -/
theorem dequantDeliversTheFormula : Obligations.DequantDeliversTheFormula := by
  unfold Obligations.DequantDeliversTheFormula
  intro s
  refine ⟨exec_dequant_of_invalid, fun hv => ?_⟩
  rw [exec_dequant_of_valid hv, dequantValue_eq, clampCode, maxCode, Request.range]

end Sys2Proof.Machine
end

section
/-! The typed scalars: every `PACK.<tag>` and `UNPACK.<tag>` delivers what `packScalar` and `unpackScalar` compute for
its tag, and the narrow tags are numbers of one or two bytes (spec/41_scalar_pack.md R120 to R139). -/

namespace Sys2Proof.Machine

/-! ## The operations by tag -/

/-- `PACK.<tag>`, and `PACK.BADTAG` for no tag, deliver the packed scalar. -/
theorem exec_packOfTag (tag : Option TypeTag) (s : State) :
    exec (packOfTag tag) s = respondPacked (packScalar tag s.inp.val) s := by
  rcases tag with _ | t
  · rfl
  · cases t <;> rfl

/-- `UNPACK.<tag>`, and `UNPACK.BADTAG` for no tag, deliver the unpacked scalar. -/
theorem exec_unpackOfTag (tag : Option TypeTag) (s : State) :
    exec (unpackOfTag tag) s = respondUnpacked (unpackScalar tag s.inp.b4) s := by
  rcases tag with _ | t
  · rfl
  · cases t <;> rfl

/-- `PACK.<tag>` on a value the tag can hold completes with its padded bytes (R121). -/
theorem exec_pack_of_fits {t : TypeTag} {s : State} {b : Bytes4} (h : fitsTag t s.inp.val = true)
    (hb : paddedLe (tagWidth t) s.inp.val = b) :
    exec (packOfTag (some t)) s = .next (s.withResponse ⟨.ok, { b4 := some b }⟩) := by
  rw [exec_packOfTag, packScalar_of_fits h, hb]
  rfl

/-- `PACK.<tag>` on a value the tag cannot hold answers `ValueOutOfRange` (R121). -/
theorem exec_pack_of_misfit {t : TypeTag} {s : State} (h : ¬ fitsTag t s.inp.val = true) :
    exec (packOfTag (some t)) s = .next (s.withResponse ⟨.valueOutOfRange, OutPorts.undefined⟩) := by
  rw [exec_packOfTag, packScalar_of_misfit h]
  rfl

/-- `UNPACK.<tag>` completes on every four bytes with the extended number (R131). -/
theorem exec_unpack (t : TypeTag) (s : State) :
    exec (unpackOfTag (some t)) s = .next (s.withResponse ⟨.ok, { val := some (extendTag t s.inp.b4) }⟩) := by
  rw [exec_unpackOfTag]
  rfl

/-! ## The bytes of a value (R121) -/

/-- The low byte of a value as an unsigned number. -/
theorem ofNat_toNat_eq_extractLsb' (v : Word32) : BitVec.ofNat 8 v.toNat = v.extractLsb' 0 8 := by
  rw [← ofNat_div_eq_extractLsb', pow_zero, Nat.div_one]

/-- The low byte of a value as a two's complement number. -/
theorem ofInt_toInt_eq_extractLsb' (v : Word32) : BitVec.ofInt 8 v.toInt = v.extractLsb' 0 8 := by
  change v.signExtend 8 = _
  rw [BitVec.signExtend_eq_setWidth_of_le v (by omega), BitVec.setWidth_eq_extractLsb' (by omega)]

/-! ## The number in the first bytes (R131) -/

theorem toNat_rawLe (w : Nat) (b : Bytes4) : (rawLe w b).toNat =
    (b.b0.toNat + 256 * b.b1.toNat + 65536 * b.b2.toNat + 16777216 * b.b3.toNat) % 2 ^ (8 * w) := by
  rw [rawLe, BitVec.toNat_setWidth, toNat_le32]

theorem rawLe_one (b : Bytes4) : rawLe 1 b = b.b0 := by
  apply BitVec.eq_of_toNat_eq
  rw [toNat_rawLe]
  omega

theorem rawLe_two (b : Bytes4) : rawLe 2 b = b.b1 ++ b.b0 := by
  apply BitVec.eq_of_toNat_eq
  rw [toNat_rawLe, BitVec.toNat_append, ← Nat.shiftLeft_add_eq_or_of_lt b.b0.isLt, Nat.shiftLeft_eq]
  omega

theorem rawLe_four (b : Bytes4) : rawLe 4 b = le32 b := BitVec.setWidth_eq _

/-! ## The extended number (R131) -/

theorem toNat_extendTag_u8 (b : Bytes4) : (extendTag .u8 b).toNat = b.b0.toNat := by
  change ((rawLe 1 b).setWidth 32).toNat = _
  rw [rawLe_one, BitVec.toNat_setWidth]
  omega

theorem toNat_extendTag_u16 (b : Bytes4) : (extendTag .u16 b).toNat = b.b0.toNat + 256 * b.b1.toNat := by
  change ((rawLe 2 b).setWidth 32).toNat = _
  rw [BitVec.toNat_setWidth, toNat_rawLe]
  omega

theorem toInt_extendTag_s8 (b : Bytes4) : (extendTag .s8 b).toInt = b.b0.toInt := by
  change ((rawLe 1 b).signExtend 32).toInt = _
  rw [rawLe_one, BitVec.toInt_signExtend_of_le (by omega)]

/-- The sign stands in the second byte, so only the first is read unsigned. -/
theorem toInt_extendTag_s16 (b : Bytes4) : (extendTag .s16 b).toInt = 256 * b.b1.toInt + b.b0.toNat := by
  change ((rawLe 2 b).signExtend 32).toInt = _
  rw [rawLe_two, BitVec.toInt_signExtend_of_le (by omega), BitVec.toInt_append]
  rfl

/-- The 32-bit tags take all four bytes: neither extension adds a bit (R136 to R138). -/
theorem extendTag_full {t : TypeTag} (h : tagWidth t = 4) (b : Bytes4) : extendTag t b = le32 b := by
  cases t with
  | u8 | s8 | u16 | s16 => exact absurd h (by decide)
  | u32 | f32 => exact (BitVec.setWidth_eq _).trans (rawLe_four b)
  | s32 => exact (BitVec.signExtend_eq _).trans (rawLe_four b)

/-! ## The statements -/

/-- Settles O25: the unsigned range checks of `PACK.U8` and `PACK.U16` read as bounds on the number. -/
theorem packUnsignedAcceptsExactlyItsWidth : Obligations.PackUnsignedAcceptsExactlyItsWidth := by
  unfold Obligations.PackUnsignedAcceptsExactlyItsWidth
  intro s
  rw [ofNat_toNat_eq_extractLsb', show 256 = 2 ^ 8 from rfl, ofNat_div_eq_extractLsb']
  refine ⟨fun h => ?_, fun h => ?_, fun h => ?_, fun h => ?_⟩
  · exact exec_pack_of_fits (t := .u8) (fitsTag_u8.2 h) (paddedLe_one _)
  · exact exec_pack_of_misfit (t := .u8) (by rw [fitsTag_u8]; omega)
  · exact exec_pack_of_fits (t := .u16) (fitsTag_u16.2 h) (paddedLe_two _)
  · exact exec_pack_of_misfit (t := .u16) (by rw [fitsTag_u16]; omega)

/-- Settles O26: the signed range checks of `PACK.S8` and `PACK.S16` read as two's complement bounds, and the padding
is that of the unsigned tags. -/
theorem packSignedAcceptsExactlyItsWidth : Obligations.PackSignedAcceptsExactlyItsWidth := by
  unfold Obligations.PackSignedAcceptsExactlyItsWidth
  intro s
  rw [ofInt_toInt_eq_extractLsb']
  refine ⟨fun h => ?_, fun h => ?_, fun h => ?_, fun h => ?_⟩
  · exact exec_pack_of_fits (t := .s8) (fitsTag_s8.2 h) (paddedLe_one _)
  · exact exec_pack_of_misfit (t := .s8) (by rw [fitsTag_s8]; omega)
  · exact exec_pack_of_fits (t := .s16) (fitsTag_s16.2 h) (paddedLe_two _)
  · exact exec_pack_of_misfit (t := .s16) (by rw [fitsTag_s16]; omega)

/-- Settles O28: the zero-extended number in the first one, two or four bytes. -/
theorem unpackReadsTheLittleEndianNumber : Obligations.UnpackReadsTheLittleEndianNumber := by
  unfold Obligations.UnpackReadsTheLittleEndianNumber
  intro s
  refine ⟨⟨_, exec_unpack .u8 s, toNat_extendTag_u8 _⟩, ⟨_, exec_unpack .u16 s, toNat_extendTag_u16 _⟩,
    fun i hi => ⟨le32 s.inp.b4, ?_, toNat_le32 _⟩⟩
  have hfull (t : TypeTag) (ht : tagWidth t = 4) :
      exec (unpackOfTag (some t)) s = .next (s.withResponse ⟨.ok, { val := some (le32 s.inp.b4) }⟩) :=
    extendTag_full ht s.inp.b4 ▸ exec_unpack t s
  obtain rfl | rfl | rfl := hi
  · exact hfull .u32 rfl
  · exact hfull .s32 rfl
  · exact hfull .f32 rfl

/-- Settles O29: sign extension keeps the two's complement number in the first one or two bytes. -/
theorem unpackSignedExtendsTheSign : Obligations.UnpackSignedExtendsTheSign := by
  unfold Obligations.UnpackSignedExtendsTheSign
  intro s
  exact ⟨⟨_, exec_unpack .s8 s, toInt_extendTag_s8 _⟩, ⟨_, exec_unpack .s16 s, toInt_extendTag_s16 _⟩⟩

/-- Settles O30: no tag is packed or unpacked, and no operand is read. -/
theorem badTagAlwaysAnswersUnknownTypeTag : Obligations.BadTagAlwaysAnswersUnknownTypeTag := by
  unfold Obligations.BadTagAlwaysAnswersUnknownTypeTag
  intro s
  exact ⟨exec_packOfTag none s, exec_unpackOfTag none s⟩

end Sys2Proof.Machine
end

section
/-! The frame envelope: `ENV.DEC` sees a buffer through its length and its DLC marker, so whatever the fixed bytes of an
envelope are, it opens as an envelope that some instance encodes (spec/43_frame_envelope.md R175 to R178). -/

namespace Sys2Proof.Machine

/-! ## The envelope of each variant, with any fixed bytes (R74, R76) -/

theorem envelopeBytes_of_a {c : Cfg} (hv : c.variant = .a) (f0 f1 f2 : Byte) (h : Bytes4) (p : Bytes8) :
    envelopeBytes { c with aSof := f0, aLen := f1, aRsv := f2 } h p =
      [f0, f1, f2, dlcLit] ++ h.toList ++ p.toList := by
  simp only [envelopeBytes, hv]

theorem envelopeBytes_of_b {c : Cfg} (hv : c.variant = .b) (f0 f1 f2 f3 : Byte) (h : Bytes4) (p : Bytes8) :
    envelopeBytes { c with bSof0 := f0, bSof1 := f1, bEof0 := f2, bEof1 := f3 } h p =
      [f0, f1] ++ h.toList ++ [dlcLit] ++ p.toList ++ [f2, f3] := by
  simp only [envelopeBytes, hv]

/-! ## ENV.DEC (R175) -/

/-- `ENV.DEC` completes on the envelope of any configuration of its variant, whatever fixed bytes that one has. -/
theorem exec_envDec_of_envelope {s : State} {c : Cfg} {h : Bytes4} {p : Bytes8}
    (hb : s.inp.buf.bytes = envelopeBytes c h p) (hv : c.variant = s.cfg.variant) :
    exec .envDec s = .next (s.withResponse ⟨.ok, { dlc := some dlcLit, h := some h, payload := some p }⟩) := by
  rw [exec_eq, resultOf, hb, ← hv, envDecode_envelopeBytes]
  rfl

/-- `ENV.DEC` answers `MalformedFrame` on a wrong length or a wrong marker. -/
theorem exec_envDec_of_mismatch {s : State} (hb : s.inp.buf.bytes.length ≠ envelopeLength s.cfg.variant ∨
    s.inp.buf.bytes[dlcOffset s.cfg.variant]? ≠ some dlcLit) :
    exec .envDec s = .next (s.withResponse ⟨.malformedFrame, OutPorts.undefined⟩) := by
  rw [exec_eq, resultOf, envDecode_of_mismatch hb]
  rfl

/-- Settles O37: an accepted buffer is the envelope of the configuration that has the buffer's own fixed bytes, and any
other has a wrong length or marker. -/
theorem envDecChecksLengthAndMarkerOnly : Obligations.EnvDecChecksLengthAndMarkerOnly := by
  unfold Obligations.EnvDecChecksLengthAndMarkerOnly
  intro s
  refine ⟨fun hv f0 f1 f2 h p hb => ?_, fun hv hbad => ?_, fun hv f0 f1 f2 f3 h p hb => ?_, fun hv hbad => ?_⟩
  · exact exec_envDec_of_envelope (hb.trans (envelopeBytes_of_a hv f0 f1 f2 h p).symm) rfl
  · exact exec_envDec_of_mismatch (by rw [hv]; exact hbad)
  · exact exec_envDec_of_envelope (hb.trans (envelopeBytes_of_b hv f0 f1 f2 f3 h p).symm) rfl
  · exact exec_envDec_of_mismatch (by rw [hv]; exact hbad)

end Sys2Proof.Machine
end

section
/-! The selector and the host: what each move of the host does in one step, and that the block answers a request with
`answerOf` of its configuration and that request, whatever it has served before (spec/70_reset_and_hazards.md R266 to
R268). -/

namespace Sys2Proof

/-! ## The selector (R61, R62) -/

/-- A selector is unassigned exactly in the four ranges of R62. -/
theorem selectorWf_eq_false_iff : ∀ op : Byte, selectorWf op = false ↔
    (0x02 ≤ op.toNat ∧ op.toNat ≤ 0x0F) ∨ (0x22 ≤ op.toNat ∧ op.toNat ≤ 0x2F) ∨
      (0x34 ≤ op.toNat ∧ op.toNat ≤ 0x3F) ∨ 0x44 ≤ op.toNat := by decide +kernel

theorem decode_encode (i : Instr) : decode (encode i) = .ok i := by cases i <;> rfl

/-- The decoder, which reads the selector's fields, rejects every byte that is not in the table. -/
theorem decode_of_unassigned : ∀ op : Byte, selectorWf op = false → decode op = .error (.illegalSelector op) := by
  decide +kernel

/-- Every byte of the table is the selector of the operation it decodes to. -/
theorem encode_of_decode {op : Byte} {i : Instr} (h : decode op = .ok i) : encode i = op := by
  have hassigned : ∀ o ∈ assignedSelectors, (decode o).map encode = .ok o := by decide
  have hmem : op ∈ assignedSelectors := by
    by_contra hno
    rw [decode_of_unassigned op (by simpa [selectorWf] using hno)] at h
    cases h
  have := hassigned op hmem
  rw [h] at this
  exact Except.ok.inj this

/-- Settles O3: decoder and encoder agree on the table, and the decoder rejects the rest. -/
theorem selectorDecodeInvertsEncode : Obligations.SelectorDecodeInvertsEncode := by
  unfold Obligations.SelectorDecodeInvertsEncode
  exact ⟨decode_encode, fun _ _ => encode_of_decode, decode_of_unassigned⟩

/-- Settles O4: each word is the selector of its operation. -/
theorem selectorWordsOfTheTable : Obligations.SelectorWordsOfTheTable := by
  unfold Obligations.SelectorWordsOfTheTable
  exact ⟨decode_encode .quant, decode_encode .dequant, decode_encode .packS16, decode_encode .packBadtag,
    decode_encode .unpackF32, decode_encode .aidPack, decode_encode .frameDec, decode_encode .rxDecode⟩

end Sys2Proof

namespace Sys2Proof.Machine

/-! ## One step by the host's next move (R266) -/

theorem step_of_nil {s : State} (h : s.host = []) : step s = .next s := by simp only [step, h]

theorem step_of_cons {s : State} {m : HostMove} {rest : List HostMove} (h : s.host = m :: rest) :
    step s = hostMove m { s with host := rest } := by simp only [step, h]

/-- A request presented with nothing pending is served in that step. -/
theorem step_of_present {s : State} {r : Request} {rest : List HostMove} (h : s.host = .present r :: rest)
    (hn : s.resp = none) : step s = serveRequest { s with host := rest, inp := r } := by
  simp only [step_of_cons h, hostMove, acceptRequest, hn]

/-- The response left by a presented request is `answerOf` of the configuration and the request. -/
theorem step_of_present_eq {s : State} {r : Request} {rest : List HostMove} (h : s.host = .present r :: rest)
    (hn : s.resp = none) :
    step s = .next (State.withResponse { s with host := rest, inp := r } (answerOf s.cfg r)) := by
  rw [step_of_present h hn, serveRequest_eq]

/-- A take serves the pending response, if any. -/
theorem step_of_take {s : State} {rest : List HostMove} (h : s.host = .take :: rest) :
    step s = .next (takeResponse { s with host := rest }) := step_of_cons h

/-- Settles O1: an accepted request is served by the operation its selector decodes to. -/
theorem stepRunsThePresentedOperation : Obligations.StepRunsThePresentedOperation := by
  unfold Obligations.StepRunsThePresentedOperation
  intro s r rest i hhost hresp hdecode
  rw [step_of_present hhost hresp]
  exact serveRequest_of_decode hdecode

/-- Serving a request with an unassigned selector gives `IllegalOp` and no result (R62). -/
theorem serveRequest_of_unassigned {s : State} (h : selectorWf s.inp.op = false) :
    serveRequest s = .next (s.withResponse ⟨.illegalOp, OutPorts.undefined⟩) :=
  serveRequest_of_illegal (decode_of_unassigned _ h)

/-- Settles O2: the four ranges hold the unassigned selectors, and serving one gives `IllegalOp`. -/
theorem unassignedSelectorAnswersIllegalOp : Obligations.UnassignedSelectorAnswersIllegalOp := by
  unfold Obligations.UnassignedSelectorAnswersIllegalOp
  intro s r rest hhost hresp hop
  rw [step_of_present hhost hresp]
  exact serveRequest_of_unassigned ((selectorWf_eq_false_iff r.op).2 hop)

/-- Settles O5: the block after the reset, field by field. -/
theorem resetSamplesTheStraps : Obligations.ResetSamplesTheStraps := by
  unfold Obligations.ResetSamplesTheStraps
  intro s straps rest hhost
  rw [step_of_cons hhost]
  rfl

/-- Settles O6: a pending response blocks the next request. -/
theorem overlappingRequestIsRefused : Obligations.OverlappingRequestIsRefused := by
  unfold Obligations.OverlappingRequestIsRefused
  intro s r q rest hhost hresp
  simp only [step_of_cons hhost, hostMove, acceptRequest, hresp]

/-- Settles O7: no move, idling, and the two kinds of take. -/
theorem takingClearsThePortsAndIdlingKeepsThem : Obligations.TakingClearsThePortsAndIdlingKeepsThem := by
  unfold Obligations.TakingClearsThePortsAndIdlingKeepsThem
  intro s rest
  refine ⟨step_of_nil, step_of_cons, fun q hhost hresp => ?_, fun hhost hresp => ?_⟩
  · rw [step_of_take hhost, takeResponse_of_pending { s with host := rest } q hresp]
  · rw [step_of_take hhost, takeResponse_of_none { s with host := rest } hresp]

/-- Settles O12: of the five things a step can do, only the reset samples a configuration. -/
theorem onlyResetChangesTheConfiguration : Obligations.OnlyResetChangesTheConfiguration := by
  unfold Obligations.OnlyResetChangesTheConfiguration
  intro s t hstep hnoreset
  obtain ⟨-, rfl⟩ | ⟨rest, -, rfl⟩ | ⟨rest, -, rfl⟩ | ⟨rest, straps, hhost, -⟩ | ⟨rest, r, -, -, rfl⟩ :=
    step_cases hstep
  · rfl
  · rfl
  · exact takeResponse_cfg _
  · exact absurd hhost (hnoreset straps rest)
  · rfl

/-! ## The invariant (log entry 14) -/

/-- The response to any request is whole (R236). -/
theorem answerOf_whole (c : Cfg) (r : Request) : (answerOf c r).Whole := answerOf_out

/-- A block that has served nothing answers with `answerOf`, the model's pure function of R267. -/
theorem freshAnswer_eq (c : Cfg) (r : Request) : freshAnswer c r = some (answerOf c r) := by
  have hstep := step_of_present_eq (s := { freshBlock c with host := [.present r] }) (r := r) rfl rfl
  simp only [freshAnswer, hstep]
  rfl

/-- A block just reset satisfies the invariant, whatever the host has taken before, if that was whole. -/
theorem inv_resetBlock (straps : Cfg) {s : State} (hd : ∀ r ∈ s.delivered, r.Whole) : (resetBlock straps s).Inv where
  pendingWhole _ h := by cases h
  deliveredWhole := hd
  pendingAnswers _ h := by cases h
  posRange := rfl

/-- Settles O13: a reset leaves nothing pending, nothing delivered and the fixed position range. -/
theorem invariantHoldsAtReset : Obligations.InvariantHoldsAtReset := by
  unfold Obligations.InvariantHoldsAtReset
  have hreset (straps : Cfg) : (State.resetOf straps).Inv :=
    inv_resetBlock straps (s := State.resetOf straps) (fun _ h => nomatch h)
  exact ⟨hreset _, hreset⟩

/-- Taking keeps the invariant: the response moves from the ports to the host, whole as it was. -/
theorem State.Inv.takeResponse {s : State} (h : s.Inv) : (takeResponse s).Inv where
  pendingWhole _ hr := by simp at hr
  deliveredWhole r hr := (mem_takeResponse_delivered s hr).elim (h.deliveredWhole r) (h.pendingWhole r)
  pendingAnswers _ hr := by simp at hr
  posRange := (congrArg Cfg.posRange (takeResponse_cfg s)).trans h.posRange

/-- Serving a request keeps the invariant: the response is the pure answer to the request on the ports. -/
theorem State.Inv.withAnswer {s : State} (h : s.Inv) : (s.withResponse (answerOf s.cfg s.inp)).Inv where
  pendingWhole _ hr := Option.some.inj hr ▸ answerOf_whole s.cfg s.inp
  deliveredWhole := h.deliveredWhole
  pendingAnswers _ hr := (freshAnswer_eq _ _).trans hr
  posRange := h.posRange

/-- The host's own list of moves is no part of the invariant. -/
theorem State.Inv.withHost {s : State} (h : s.Inv) (rest : List HostMove) : State.Inv { s with host := rest } :=
  ⟨h.pendingWhole, h.deliveredWhole, h.pendingAnswers, h.posRange⟩

/-- With nothing pending, what stands on the request ports is no part of the invariant either. -/
theorem State.Inv.withInp {s : State} (h : s.Inv) (hn : s.resp = none) (r : Request) :
    State.Inv { s with inp := r } :=
  ⟨h.pendingWhole, h.deliveredWhole, fun _ hq => (nomatch hn.symm.trans hq), h.posRange⟩

/-- Settles O14: the invariant is kept by each of the five things a step can do. -/
theorem everyStepKeepsTheInvariant : Obligations.EveryStepKeepsTheInvariant := by
  unfold Obligations.EveryStepKeepsTheInvariant
  intro s t hinv hstep
  obtain ⟨-, rfl⟩ | ⟨rest, -, rfl⟩ | ⟨rest, -, rfl⟩ | ⟨rest, straps, -, rfl⟩ | ⟨rest, r, -, hn, rfl⟩ :=
    step_cases hstep
  · exact hinv
  · exact hinv.withHost rest
  · exact (hinv.withHost rest).takeResponse
  · exact inv_resetBlock straps hinv.deliveredWhole
  · exact ((hinv.withHost rest).withInp hn r).withAnswer

/-- Settles O15: a step that leaves a response where there was none has served a request, and its answer is whole. -/
theorem noPartialResultOnFailure : Obligations.NoPartialResultOnFailure := by
  unfold Obligations.NoPartialResultOnFailure
  intro s t r hn hstep hresp hfail p
  obtain ⟨-, rfl⟩ | ⟨rest, -, rfl⟩ | ⟨rest, -, rfl⟩ | ⟨rest, straps, -, rfl⟩ | ⟨rest, q, -, -, rfl⟩ :=
    step_cases hstep
  · rw [hn] at hresp; cases hresp
  · rw [hn] at hresp; cases hresp
  · rw [takeResponse_resp] at hresp; cases hresp
  · cases hresp
  · obtain rfl : answerOf s.cfg q = r := Option.some.inj hresp
    rw [answerOf_whole _ _ hfail, OutPorts.isDefined_undefined]

/-! ## A conversation (R21, R53, R237) -/

/-- A run of one step more begins with the step. -/
theorem run_succ_of_step {s t : State} (h : step s = .next t) (k : Nat) :
    Host.Core.run Sys2Proof.core (k + 1) s = Host.Core.run Sys2Proof.core k t := by
  have hcore : Sys2Proof.core.step s = .next t := h
  simp only [Host.Core.run, hcore]

/-- Two steps serve one request of a conversation: it is answered as `answerOf` says, the answer is taken, and the block
is quiet again. -/
theorem run_present_take {s : State} {r : Request} {rest : List HostMove} (hq : s.Quiet)
    (hhost : s.host = .present r :: .take :: rest) (k : Nat) :
    Host.Core.run Sys2Proof.core (k + 2) s =
      Host.Core.run Sys2Proof.core k { s with host := rest, delivered := s.delivered ++ [answerOf s.cfg r] } := by
  obtain ⟨hresp, hinp⟩ := hq
  rw [run_succ_of_step (step_of_present_eq hhost hresp) (k + 1), run_succ_of_step (step_of_take rfl) k,
    takeResponse_of_pending _ _ rfl, hresp, hinp]
  rfl

/-- A conversation is answered request by request with `answerOf`, and nothing of it stays in the block. -/
theorem run_conversation (rest : List HostMove) (rs : List Request) (s : State) (hq : s.Quiet)
    (hhost : s.host = conversation rs ++ rest) : Host.Core.run Sys2Proof.core (2 * rs.length) s =
      .next { s with host := rest, delivered := s.delivered ++ rs.map (answerOf s.cfg) } := by
  induction rs generalizing s with
  | nil =>
    obtain rfl : s.host = rest := hhost
    rw [List.map_nil, List.append_nil]
    rfl
  | cons r rs ih =>
    rw [List.length_cons, Nat.mul_succ, run_present_take (rest := conversation rs ++ rest) hq hhost]
    have hrest := ih { s with host := conversation rs ++ rest, delivered := s.delivered ++ [answerOf s.cfg r] } hq rfl
    rw [hrest, List.append_assoc]
    rfl

/-- Settles O16: the answers are those of `answerOf`, which fresh blocks give too. -/
theorem conversationAnswersAsFreshBlocksDo : Obligations.ConversationAnswersAsFreshBlocksDo := by
  unfold Obligations.ConversationAnswersAsFreshBlocksDo
  intro rs rest s hq hhost
  refine ⟨rs.map (answerOf s.cfg), ?_, run_conversation rest rs s hq hhost⟩
  simp [freshAnswer_eq]

end Sys2Proof.Machine
end

section
/-! The responses of the 28 operations: what they depend on, the ports they define and the statuses they carry
(spec/10_state.md R26 to R28, spec/60_exceptions.md R232). -/

namespace Sys2Proof.Machine

/-- Settles O8: the response is the one of `resultOf`, and the rest of the state stays. -/
theorem everyOperationAnswersAndChangesOnlyTheResponse :
    Obligations.EveryOperationAnswersAndChangesOnlyTheResponse := by
  unfold Obligations.EveryOperationAnswersAndChangesOnlyTheResponse
  intro i s
  exact ⟨_, exec_eq i s⟩

/-! ## What an operation reads (R26, R27) -/

/-- An operation computes the same from the configuration fields and the request ports it reads alone. -/
theorem resultOf_views (i : Instr) (c : Cfg) (r : Request) :
    resultOf i (cfgView i c) (readView i r) = resultOf i c r := by
  cases i
  case envEnc | frameEnc =>
    obtain ⟨v⟩ := c
    cases v <;> rfl
  all_goals rfl

/-- Settles O9: the two states have the same views, and the views fix the response. -/
theorem responseDependsOnlyOnWhatTheOperationReads : Obligations.ResponseDependsOnlyOnWhatTheOperationReads := by
  unfold Obligations.ResponseDependsOnlyOnWhatTheOperationReads
  intro i s t hreq hcfg
  have hsame : resultOf i s.cfg s.inp = resultOf i t.cfg t.inp := by
    rw [← resultOf_views i s.cfg s.inp, ← resultOf_views i t.cfg t.inp, hreq, hcfg]
  exact ⟨_, exec_eq i s, hsame ▸ exec_eq i t⟩

/-! ## The ports an operation defines (R28) -/

/-- A mapped computation completes only where the computation does. -/
theorem ok_of_map_ok {α : Type} {f : α → OutPorts} {r : Except Status α} {out : OutPorts} (h : r.map f = .ok out) :
    ∃ a, r = .ok a ∧ f a = out := by
  cases r with
  | error e => cases h
  | ok a => exact ⟨a, rfl, Except.ok.inj h⟩

/-- The ports of a reply that `RX.DECODE` decodes are those of the path its command selects (R215). -/
theorem isDefined_of_decodeReply_ok {fp : Numerics} {c : Cfg} {cm d : Byte} {g : BitVec 16} {p : Bytes8}
    {out : OutPorts} (h : decodeReply fp c cm g d p = .ok out) (q : PortName) :
    out.isDefined q = decide (q ∈ resultPorts .rxDecode cm) := by
  by_cases h2 : cm = 2#8
  · rw [decodeReply_motion h2] at h
    obtain ⟨t, -, rfl⟩ := ok_of_map_ok h
    subst h2
    cases q <;> rfl
  · by_cases h21 : cm = 21#8
    · rw [decodeReply_report h21] at h
      obtain rfl := Except.ok.inj h
      subst h21
      cases q <;> rfl
    · rw [decodeReply_other h2 h21] at h
      cases h

/-- A completed operation defines exactly its result ports. -/
theorem isDefined_of_resultOf_ok {i : Instr} {c : Cfg} {r : Request} {out : OutPorts} (h : resultOf i c r = .ok out)
    (q : PortName) : out.isDefined q = decide (q ∈ resultPorts i r.command) := by
  cases i
  case packBadtag | unpackBadtag => cases h
  case aidUnpack | fltStatus | fltReport =>
    obtain rfl := Except.ok.inj h
    cases q <;> rfl
  case rxDecode => exact isDefined_of_decodeReply_ok h q
  all_goals
    unfold resultOf at h
    obtain ⟨a, -, rfl⟩ := ok_of_map_ok h
    cases q <;> rfl

/-- Settles O10: a completed operation defines its result ports, a failed one none. -/
theorem okResponseDefinesExactlyTheOperationsPorts : Obligations.OkResponseDefinesExactlyTheOperationsPorts := by
  unfold Obligations.OkResponseDefinesExactlyTheOperationsPorts
  intro i s
  refine ⟨_, exec_eq i s, fun hok p => ?_, fun hfail p => ?_⟩
  · obtain ⟨out, hout, hresp⟩ | ⟨st, hst, -, hresp⟩ := responseOf_resultOf i s.cfg s.inp
    · rw [hresp, okResponse_out, isDefined_of_resultOf_ok hout, decide_eq_true_iff]
    · rw [hresp] at hok
      exact absurd hok hst
  · rw [responseOf_out hfail, OutPorts.isDefined_undefined]

/-! ## The statuses of an operation (R232) -/

/-- A completed operation has `OK` in its row. -/
theorem ok_mem_statusesOf {i : Instr} {c : Cfg} {r : Request} {out : OutPorts} (h : resultOf i c r = .ok out) :
    .ok ∈ statusesOf i := by
  cases i
  case packBadtag | unpackBadtag => cases h
  all_goals decide

/-- The status an operation answers is in its row. -/
theorem status_mem_statusesOf (i : Instr) (c : Cfg) (r : Request) :
    (responseOf (resultOf i c r)).status ∈ statusesOf i := by
  obtain ⟨out, hout, hresp⟩ | ⟨st, -, herr, hresp⟩ := responseOf_resultOf i c r
  · rw [hresp]
    exact ok_mem_statusesOf hout
  · rw [hresp]
    exact (resultOf_error herr).2

/-- A request that every operation with the given status in its row answers with it, on the configuration
`statusExampleCfg`. -/
def statusExample : Status → Request
  | .ok => { Request.undriven with
      min := Config.posRange.min, max := Config.posRange.max, bits := 16#6, dlc := dlcLit,
      command := commandMotionStatus, buf := ⟨List.replicate 17 dlcLit, by decide⟩ }
  | .invalidOperand => { Request.undriven with
      x := 0x7FF8000000000000#64, min := Config.posRange.min, max := Config.posRange.max, bits := 16#6 }
  | .invalidRange => { Request.undriven with command := commandMotionStatus }
  | .valueOutOfRange => { Request.undriven with val := 0x00010000#32 }
  | .illFormedFrame => { Request.undriven with command := 32#8 }
  | .malformedFrame | .unknownTypeTag | .illegalOp | .notDecodable => Request.undriven

/-- The configuration of `Config.instanceStraps`, and for `InvalidRange` one with a velocity range that is not valid. -/
def statusExampleCfg : Status → Cfg
  | .invalidRange => { Config.instanceStraps with velRange := ⟨0#64, 0#64, 0#6⟩ }
  | _ => Config.instanceStraps

/-- Every status of an operation's row is answered to its example. -/
theorem status_statusExample (i : Instr) : ∀ st ∈ statusesOf i,
    (responseOf (resultOf i (statusExampleCfg st) (statusExample st))).status = st := by
  cases i <;> decide +kernel

/-- The ranges a motion-status reply is dequantized in are among those of R7. -/
theorem valid_of_cfgWellFormed {fp : Numerics} {c : Cfg} (h : cfgWellFormed fp c = true) :
    rangeValid fp c.posRange = true ∧ rangeValid fp c.velRange = true ∧ rangeValid fp c.trqRange = true := by
  simp only [cfgWellFormed, Bool.and_eq_true] at h
  obtain ⟨⟨⟨⟨hpos, hvel⟩, htrq⟩, -⟩, -⟩ := h
  exact ⟨hpos, hvel, htrq⟩

/-- With the three ranges valid, a reply fails to decode only for its command. -/
theorem decodeReply_ne_invalidRange {fp : Numerics} {c : Cfg} {cm d : Byte} {g : BitVec 16} {p : Bytes8}
    (hpos : rangeValid fp c.posRange = true) (hvel : rangeValid fp c.velRange = true)
    (htrq : rangeValid fp c.trqRange = true) : decodeReply fp c cm g d p ≠ .error .invalidRange := by
  intro h
  by_cases h2 : cm = 2#8
  · rw [decodeReply_motion h2, decodeTelemetry_of_valid p hpos hvel htrq] at h
    cases h
  · by_cases h21 : cm = 21#8
    · rw [decodeReply_report h21] at h
      cases h
    · rw [decodeReply_other h2 h21] at h
      cases h

/-- An operation answers with the status of its computation. -/
theorem exec_of_status {i : Instr} {s : State} {st : Status} (h : (responseOf (resultOf i s.cfg s.inp)).status = st) :
    ∃ out, exec i s = .next (s.withResponse ⟨st, out⟩) := by
  subst h
  exact ⟨_, exec_eq i s⟩

/-- An operation answers a failing response only where its computation fails with that status. -/
theorem resultOf_of_exec {i : Instr} {s : State} {st : Status} {out : OutPorts}
    (h : exec i s = .next (s.withResponse ⟨st, out⟩)) (hst : st ≠ .ok) : resultOf i s.cfg s.inp = .error st := by
  rw [exec_eq, Host.Outcome.next.injEq, State.withResponse_inj] at h
  cases hr : resultOf i s.cfg s.inp with
  | ok o =>
    rw [hr] at h
    exact absurd (congrArg Response.status h).symm hst
  | error e =>
    rw [hr] at h
    exact congrArg Except.error (congrArg Response.status h)

/-- An operation answers `OK` with some ports exactly where its computation delivers them. -/
theorem exec_eq_ok_iff {i : Instr} {s : State} {out : OutPorts} :
    exec i s = .next (s.withResponse ⟨.ok, out⟩) ↔ resultOf i s.cfg s.inp = .ok out := by
  rw [exec_eq, Host.Outcome.next.injEq, State.withResponse_inj]
  obtain ⟨o, hr, hresp⟩ | ⟨st, hst, hr, hresp⟩ := responseOf_resultOf i s.cfg s.inp
  · rw [hresp, hr, Except.ok.injEq]
    exact ⟨congrArg Response.out, congrArg okResponse⟩
  · rw [hresp, hr]
    exact ⟨fun h => absurd (congrArg Response.status h) hst, fun h => nomatch h⟩

/-- An operation answers another status with no port exactly where its computation fails with it. -/
theorem exec_eq_fail_iff {i : Instr} {s : State} {st : Status} (hst : st ≠ .ok) :
    exec i s = .next (s.withResponse ⟨st, OutPorts.undefined⟩) ↔ resultOf i s.cfg s.inp = .error st := by
  refine ⟨fun h => resultOf_of_exec h hst, fun h => ?_⟩
  rw [exec_eq, h]
  rfl

/-- Settles O11: each row holds the statuses of its operation and no other, each with an example. -/
theorem statusesAreExactlyThoseOfTheTable : Obligations.StatusesAreExactlyThoseOfTheTable := by
  unfold Obligations.StatusesAreExactlyThoseOfTheTable
  refine ⟨fun i st => ⟨fun hst => ?_, ?_⟩, fun s out hwf => ?_, fun s => serveRequest_of_unassigned⟩
  · exact ⟨{ freshBlock (statusExampleCfg st) with inp := statusExample st },
      exec_of_status (status_statusExample i st hst)⟩
  · rintro ⟨s, out, h⟩
    rw [exec_eq, Host.Outcome.next.injEq, State.withResponse_inj] at h
    have hmem := status_mem_statusesOf i s.cfg s.inp
    rwa [h] at hmem
  · obtain ⟨hpos, hvel, htrq⟩ := valid_of_cfgWellFormed hwf
    refine ⟨fun h => ?_, fun h => ?_⟩
    · have hres := error_of_map_error (resultOf_of_exec h (by decide))
      rw [decodeTelemetry_of_valid _ hpos hvel htrq] at hres
      cases hres
    · exact decodeReply_ne_invalidRange hpos hvel htrq (resultOf_of_exec h (by decide))

end Sys2Proof.Machine
end

section
/-! The round trip of the typed scalars: the number in a tag's first bytes is the value's low bits, and extending it
gives the value back exactly where the tag holds it (spec/41_scalar_pack.md R141). -/

namespace Sys2Proof.Machine

/-! ## Values and bytes of one tag -/

theorem tagWidth_le (t : TypeTag) : 8 * tagWidth t ≤ 32 := by cases t <;> decide

/-- Widening a word loses no bit. -/
theorem setWidth_widened {n m : Nat} (x : BitVec n) (h : n ≤ m) : (x.setWidth m).setWidth n = x := by
  rw [BitVec.setWidth_setWidth_of_le x h, BitVec.setWidth_eq]

/-- What the first bytes of a packed value hold is its low bits. -/
theorem rawLe_paddedLe {w : Nat} (hw : 8 * w ≤ 32) (v : Word32) : rawLe w (paddedLe w v) = v.setWidth (8 * w) := by
  rw [rawLe, paddedLe, le32_bytesOfLe32, setWidth_widened _ hw]

/-- Unsigned values that fit are their own low bits. -/
theorem setWidth_of_fitsUnsigned {w : Nat} {v : Word32} (h : fitsUnsigned w v = true) :
    (v.setWidth (8 * w)).setWidth 32 = v := by
  have hv := fitsUnsigned_iff.1 h
  apply BitVec.eq_of_toNat_eq
  rw [BitVec.toNat_setWidth, BitVec.toNat_setWidth, Nat.mod_eq_of_lt hv, Nat.mod_eq_of_lt v.isLt]

/-- Unpacking gives back a value the tag can hold. -/
theorem extendTag_paddedLe {t : TypeTag} {v : Word32} (h : fitsTag t v = true) :
    extendTag t (paddedLe (tagWidth t) v) = v := by
  have hraw := rawLe_paddedLe (tagWidth_le t) v
  cases t with
  | u8 | u16 | u32 => exact (congrArg (BitVec.setWidth 32) hraw).trans (setWidth_of_fitsUnsigned h)
  | s8 | s16 | s32 => exact (congrArg (BitVec.signExtend 32) hraw).trans (beq_iff_eq.1 h)
  | f32 => exact (congrArg (BitVec.setWidth 32) hraw).trans (BitVec.setWidth_eq _)

/-- The low bits of what was unpacked are the number in the first bytes, for each kind of extension. -/
theorem setWidth_extendTag (t : TypeTag) (b : Bytes4) :
    (extendTag t b).setWidth (8 * tagWidth t) = rawLe (tagWidth t) b := by
  cases t with
  | u8 | u16 | u32 | f32 => exact setWidth_widened _ (by decide)
  | s8 | s16 | s32 => exact setWidth_signExtend _ (by decide)

/-- A tag holds every value it unpacks. -/
theorem fitsTag_extendTag (t : TypeTag) (b : Bytes4) : fitsTag t (extendTag t b) = true := by
  have hlow := setWidth_extendTag t b
  cases t with
  | u8 | u16 | u32 =>
    refine fitsUnsigned_iff.2 (lt_of_le_of_lt ?_ (rawLe _ b).isLt)
    exact (BitVec.toNat_setWidth _ _).trans_le (Nat.mod_le _ _)
  | s8 | s16 | s32 => exact beq_iff_eq.2 (congrArg (BitVec.signExtend 32) hlow)
  | f32 => rfl

theorem bytesOfLe32_eq_iff {w : Word32} {b : Bytes4} : bytesOfLe32 w = b ↔ w = le32 b :=
  ⟨fun h => h ▸ (le32_bytesOfLe32 w).symm, fun h => h ▸ bytesOfLe32_le32 b⟩

/-- Packing what was unpacked gives the bytes back exactly where the bytes past the width are zero. -/
theorem paddedLe_extendTag_eq_iff (t : TypeTag) (b : Bytes4) : paddedLe (tagWidth t) (extendTag t b) = b ↔
    (tagWidth t ≤ 1 → b.b1 = 0#8) ∧ (tagWidth t ≤ 2 → b.b2 = 0#8 ∧ b.b3 = 0#8) := by
  have hpad : paddedLe (tagWidth t) (extendTag t b) = b ↔ (le32 b).toNat % 2 ^ (8 * tagWidth t) = (le32 b).toNat := by
    rw [paddedLe, setWidth_extendTag, bytesOfLe32_eq_iff, rawLe, ← BitVec.toNat_inj, BitVec.toNat_setWidth,
      BitVec.toNat_setWidth, Nat.mod_eq_of_lt (lt_of_le_of_lt (Nat.mod_le _ _) (le32 b).isLt)]
  have hzero (x : Byte) : x = 0#8 ↔ x.toNat = 0 := BitVec.toNat_inj.symm
  rw [hpad, toNat_le32, hzero, hzero, hzero]
  have h0 := b.b0.isLt
  have h1 := b.b1.isLt
  have h2 := b.b2.isLt
  have h3 := b.b3.isLt
  cases t <;> simp only [tagWidth] <;> omega

/-! ## The statements -/

/-- `PACK.<tag>` delivers bytes exactly where the tag holds the value, and they are its padded bytes (R121). -/
theorem exec_pack_eq_ok_iff {t : TypeTag} {s : State} {b : Bytes4} :
    exec (packOfTag (some t)) s = .next (s.withResponse ⟨.ok, { b4 := some b }⟩) ↔
      fitsTag t s.inp.val = true ∧ paddedLe (tagWidth t) s.inp.val = b := by
  refine ⟨fun h => ?_, fun ⟨hfits, hb⟩ => exec_pack_of_fits hfits hb⟩
  by_cases hfits : fitsTag t s.inp.val = true
  · rw [exec_pack_of_fits hfits rfl] at h
    exact ⟨hfits, by simpa using h⟩
  · rw [exec_pack_of_misfit hfits] at h
    exact absurd h (by simp)

/-- Settles O31: a tag's padded bytes and its extended numbers are inverse where the tag holds the value, and every
number it unpacks it holds. -/
theorem scalarRoundTripForEveryTag : Obligations.ScalarRoundTripForEveryTag := by
  unfold Obligations.ScalarRoundTripForEveryTag
  intro tag s t
  constructor
  · intro b hpack hb
    obtain ⟨hfits, hpad⟩ := exec_pack_eq_ok_iff.1 hpack
    rw [exec_unpack, hb, ← hpad, extendTag_paddedLe hfits]
  · intro v hunpack hv
    rw [exec_unpack] at hunpack
    have hval : t.inp.val = extendTag tag s.inp.b4 := by simpa [hv] using hunpack.symm
    rw [exec_pack_eq_ok_iff, hval, paddedLe_extendTag_eq_iff]
    exact and_iff_right (fitsTag_extendTag tag s.inp.b4)

/-- Settles O27: the three 32-bit tags hold every value, and its bytes are those of the quotients. -/
theorem packFullWidthIsLittleEndian : Obligations.PackFullWidthIsLittleEndian := by
  unfold Obligations.PackFullWidthIsLittleEndian
  intro s i hi
  rw [ofNat_toNat_eq_extractLsb', ofNat_div_eq_extractLsb', ofNat_div_eq_extractLsb', ofNat_div_eq_extractLsb']
  have hpack (t : TypeTag) (ht : tagWidth t = 4) : exec (packOfTag (some t)) s =
      .next (s.withResponse ⟨.ok, { b4 := some (bytesOfLe32 s.inp.val) }⟩) :=
    exec_pack_of_fits (fitsTag_full ht _) (ht ▸ paddedLe_four _)
  obtain rfl | rfl | rfl := hi
  · exact hpack .u32 rfl
  · exact hpack .s32 rfl
  · exact hpack .f32 rfl

end Sys2Proof.Machine
end

section
/-! The arbitration ID by numbers: a header word and its three fields are digits of one number, in either variant
(spec/30_encoding.md R69 to R72), so each statement about them is arithmetic. -/

namespace Sys2Proof.Machine

/-! ## Words as numbers -/

theorem toNat_append_eq_add {m n : Nat} (a : BitVec m) (b : BitVec n) :
    (a ++ b).toNat = a.toNat * 2 ^ n + b.toNat := by
  rw [BitVec.toNat_append, ← Nat.shiftLeft_add_eq_or_of_lt b.isLt, Nat.shiftLeft_eq]

/-- A field of a word is a digit of its number. -/
theorem toNat_extractLsb'_eq {n : Nat} (a : BitVec n) (lo len : Nat) :
    (a.extractLsb' lo len).toNat = a.toNat / 2 ^ lo % 2 ^ len := by
  rw [BitVec.extractLsb'_toNat, Nat.shiftRight_eq_div_pow]

/-- The number in four bytes, the first the most significant (spec/20_memory.md R44). -/
theorem toNat_be32 (b : Bytes4) :
    (be32 b).toNat = 16777216 * b.b0.toNat + 65536 * b.b1.toNat + 256 * b.b2.toNat + b.b3.toNat := by
  calc (be32 b).toNat = b.b3.toNat + 256 * b.b2.toNat + 65536 * b.b1.toNat + 16777216 * b.b0.toNat :=
        toNat_le32 ⟨b.b3, b.b2, b.b1, b.b0⟩
    _ = _ := by omega

theorem bytesOfBe32_eq_iff {w : Word32} {b : Bytes4} : bytesOfBe32 w = b ↔ w = be32 b :=
  ⟨fun h => h ▸ (be32_bytesOfBe32 w).symm, fun h => h ▸ bytesOfBe32_be32 b⟩

/-- The number of an arbitration ID (R69). -/
theorem toNat_id29 (c : BitVec 5) (g : BitVec 16) (d : Byte) :
    (id29 c g d).toNat = 16777216 * c.toNat + 256 * g.toNat + d.toNat := by
  rw [id29, toNat_append_eq_add, toNat_append_eq_add]
  omega

/-- The header word of variant A is the ID (R71). -/
theorem toNat_headerWord_a (i : BitVec 29) : (headerWord .a i).toNat = i.toNat :=
  BitVec.toNat_setWidth_of_le (by decide)

/-- The header word of variant B is eight times the ID, and the marker (R72). -/
theorem toNat_headerWord_b (i : BitVec 29) : (headerWord .b i).toNat = 8 * i.toNat + 4 := by
  have hi := i.isLt
  have hshift : (i.setWidth 32 <<< 3).toNat = i.toNat <<< 3 := by
    rw [BitVec.toNat_shiftLeft, BitVec.toNat_setWidth, Nat.mod_eq_of_lt (by omega), Nat.shiftLeft_eq]
    omega
  rw [headerWord, BitVec.toNat_or, hshift, show (0x00000004#32).toNat = 4 from rfl,
    ← Nat.shiftLeft_add_eq_or_of_lt (by omega), Nat.shiftLeft_eq]
  omega

/-- The ID in a header word of variant A: the low 29 bits (spec/42_arbitration_id.md R155). -/
theorem toNat_headerId29_a (w : Word32) : (headerId29 .a w).toNat = w.toNat % 2 ^ 29 := by
  rw [headerId29, toNat_extractLsb'_eq]
  omega

/-- The ID in a header word of variant B: the bits above the low three (R156). -/
theorem toNat_headerId29_b (w : Word32) : (headerId29 .b w).toNat = w.toNat / 8 := by
  have := w.isLt
  rw [headerId29, toNat_extractLsb'_eq]
  omega

/-! ## AID.PACK (R151, R152) -/

/-- `AID.PACK` delivers a header exactly where the two fields are in range, and then the header of their ID. -/
theorem aidPackHeader_eq_ok_iff {v : Variant} {c d : Byte} {g : BitVec 16} {h : Bytes4} :
    aidPackHeader v c g d = .ok h ↔
      (c.toNat ≤ 31 ∧ d.toNat ≤ 127) ∧ headerWord v (id29 (c.extractLsb' 0 5) g d) = be32 h := by
  rw [← aidAccepts_iff, ← bytesOfBe32_eq_iff, aidPackHeader]
  by_cases ha : aidAccepts c d = true
  · simp [ha]
  · simp [ha]

theorem exec_aidPack_eq_ok_iff {s : State} {h : Bytes4} :
    exec .aidPack s = .next (s.withResponse ⟨.ok, { h := some h }⟩) ↔
      aidPackHeader s.cfg.variant s.inp.command s.inp.senderTag s.inp.deviceId = .ok h := by
  rw [exec_eq_ok_iff, resultOf]
  refine ⟨fun hmap => ?_, fun hok => by rw [hok]; rfl⟩
  obtain ⟨a, ha, hout⟩ := ok_of_map_ok hmap
  obtain rfl : a = h := by simpa using hout
  exact ha

/-- Settles O32: the header word and the header bytes are one number, and fields beyond a bound are refused. -/
theorem aidPackBuildsTheHeaderBytes : Obligations.AidPackBuildsTheHeaderBytes := by
  unfold Obligations.AidPackBuildsTheHeaderBytes
  intro s
  refine ⟨fun hfields hv => ?_, fun hfields hv => ?_, fun hexcess => ?_⟩
  · obtain ⟨hc, hd⟩ := hfields
    rw [exec_aidPack_eq_ok_iff, aidPackHeader_eq_ok_iff, hv]
    refine ⟨⟨hc, hd⟩, BitVec.eq_of_toNat_eq ?_⟩
    rw [toNat_headerWord_a, toNat_id29, toNat_be32]
    simp only [toNat_extractLsb'_eq]
    omega
  · rw [exec_aidPack_eq_ok_iff, aidPackHeader_eq_ok_iff, hv]
    refine ⟨hfields, BitVec.eq_of_toNat_eq ?_⟩
    rw [toNat_headerWord_b, toNat_id29, toNat_be32]
    simp only [toNat_append_eq_add, toNat_extractLsb'_eq, show (0b100#3).toNat = 4 from rfl]
    have hg := s.inp.senderTag.isLt
    have hd := s.inp.deviceId.isLt
    omega
  · rw [exec_eq_fail_iff (by decide), resultOf, aidPackHeader_of_excess _ hexcess]
    rfl

/-! ## AID.UNPACK (R155) -/

/-- `AID.UNPACK` completes on every header with the fields of its ID. -/
theorem exec_aidUnpack {s : State} {i : BitVec 29} (hi : aidOfHeader s.cfg.variant s.inp.h = i) :
    exec .aidUnpack s = .next (s.withResponse ⟨.ok,
      { command := some (id29Command i), senderTag := some (id29SenderTag i),
        deviceId := some (id29DeviceId i) }⟩) := by
  rw [exec_eq_ok_iff, resultOf, hi]

/-- The ID in the header bytes of variant A. -/
theorem aidOfHeader_a (h : Bytes4) : aidOfHeader .a h = id29 (h.b0.extractLsb' 0 5) (h.b1 ++ h.b2) h.b3 := by
  apply BitVec.eq_of_toNat_eq
  rw [aidOfHeader, toNat_headerId29_a, toNat_be32, toNat_id29, toNat_extractLsb'_eq, toNat_append_eq_add]
  omega

/-- The ID in the header bytes of variant B, three bits further up. -/
theorem aidOfHeader_b (h : Bytes4) : aidOfHeader .b h =
    id29 (h.b0.extractLsb' 3 5) (h.b0.extractLsb' 0 3 ++ h.b1 ++ h.b2.extractLsb' 3 5)
      (h.b2.extractLsb' 0 3 ++ h.b3.extractLsb' 3 5) := by
  apply BitVec.eq_of_toNat_eq
  rw [aidOfHeader, toNat_headerId29_b, toNat_be32, toNat_id29]
  simp only [toNat_extractLsb'_eq, toNat_append_eq_add]
  omega

/-- `AID.UNPACK` delivers the three fields that make up the ID in the header. -/
theorem exec_aidUnpack_of_fields {s : State} {c : BitVec 5} {g : BitVec 16} {d : Byte}
    (hi : aidOfHeader s.cfg.variant s.inp.h = id29 c g d) :
    exec .aidUnpack s = .next (s.withResponse ⟨.ok,
      { command := some c, senderTag := some g, deviceId := some d }⟩) := by
  rw [exec_aidUnpack hi, id29Command_id29, id29SenderTag_id29, id29DeviceId_id29]

/-- Settles O33: the fields of the ID in the header, in each variant. -/
theorem aidUnpackReadsTheFields : Obligations.AidUnpackReadsTheFields := by
  unfold Obligations.AidUnpackReadsTheFields
  intro s
  exact ⟨fun hv => exec_aidUnpack_of_fields (hv ▸ aidOfHeader_a s.inp.h),
    fun hv => exec_aidUnpack_of_fields (hv ▸ aidOfHeader_b s.inp.h)⟩

/-- Settles O42: the fields of a fixed header, read at the positions of variant B. -/
theorem variantMismatchIsNotDetected : Obligations.VariantMismatchIsNotDetected := by
  unfold Obligations.VariantMismatchIsNotDetected
  intro s hv hh
  exact exec_aidUnpack_of_fields (by rw [hv, hh]; decide)

/-! ## The image of AID.PACK (R157, R158) -/

/-- The ID in a packed header is that of the fields packed. -/
theorem aidOfHeader_of_aidPackHeader {v : Variant} {c d : Byte} {g : BitVec 16} {h : Bytes4}
    (hp : aidPackHeader v c g d = .ok h) : aidOfHeader v h = id29 (c.extractLsb' 0 5) g d := by
  obtain ⟨-, hword⟩ := aidPackHeader_eq_ok_iff.1 hp
  rw [aidOfHeader, ← hword, headerId29_headerWord]

theorem toNat_le_127_iff {d : Byte} : d.toNat ≤ 127 ↔ d.getLsbD 7 = false := by
  have hmsb : d.getLsbD 7 = d.msb := rfl
  rw [hmsb, BitVec.msb_eq_decide, decide_eq_false_iff_not]
  omega

/-- The command bits of an unpacked command, widened to the request port. -/
theorem setWidth_command (c : BitVec 5) : (c.setWidth 8).extractLsb' 0 5 = c := by
  rw [← BitVec.setWidth_eq_extractLsb' (by decide), setWidth_widened _ (by decide)]

/-- Packing the fields of an ID, its command widened to the request port. -/
theorem aidPackHeader_fields_iff {v : Variant} {i : BitVec 29} {h : Bytes4} :
    aidPackHeader v ((id29Command i).setWidth 8) (id29SenderTag i) (id29DeviceId i) = .ok h ↔
      i.getLsbD 7 = false ∧ headerWord v i = be32 h := by
  have hc : ((id29Command i).setWidth 8).toNat ≤ 31 := by
    rw [BitVec.toNat_setWidth_of_le (by decide)]
    exact Nat.le_of_lt_succ (id29Command i).isLt
  have hbit : (id29DeviceId i).getLsbD 7 = i.getLsbD 7 := by simp [id29DeviceId]
  rw [aidPackHeader_eq_ok_iff, setWidth_command, id29_fields, and_iff_right hc, toNat_le_127_iff, hbit]

/-- Some request packs to a header exactly where packing the fields of its ID gives it back. -/
theorem exists_aidPackHeader_iff {v : Variant} {h : Bytes4} :
    (∃ c g d, aidPackHeader v c g d = .ok h) ↔
      (aidOfHeader v h).getLsbD 7 = false ∧ headerWord v (aidOfHeader v h) = be32 h := by
  constructor
  · rintro ⟨c, g, d, hp⟩
    obtain ⟨⟨-, hd⟩, hword⟩ := aidPackHeader_eq_ok_iff.1 hp
    rw [aidOfHeader_of_aidPackHeader hp]
    exact ⟨(getLsbD_id29 _ _ _ 7).trans (toNat_le_127_iff.1 hd), hword⟩
  · intro hi
    exact ⟨_, _, _, aidPackHeader_fields_iff.2 hi⟩

/-- `AID.PACK` delivers a header to some request with a given configuration. -/
theorem exists_exec_aidPack_iff {c : Cfg} {h : Bytes4} :
    (∃ s : State, s.cfg = c ∧ exec .aidPack s = .next (s.withResponse ⟨.ok, { h := some h }⟩)) ↔
      (aidOfHeader c.variant h).getLsbD 7 = false ∧ headerWord c.variant (aidOfHeader c.variant h) = be32 h := by
  rw [← exists_aidPackHeader_iff]
  constructor
  · rintro ⟨s, rfl, hs⟩
    exact ⟨_, _, _, exec_aidPack_eq_ok_iff.1 hs⟩
  · rintro ⟨cm, g, d, hp⟩
    exact ⟨{ freshBlock c with inp := { Request.undriven with command := cm, senderTag := g, deviceId := d } }, rfl,
      exec_aidPack_eq_ok_iff.2 hp⟩

/-- A word of variant A is the header word of its ID where the bits above the ID are zero. -/
theorem headerWord_headerId29_a_iff (w : Word32) : headerWord .a (headerId29 .a w) = w ↔ w.extractLsb' 29 3 = 0#3 := by
  have hw := w.isLt
  rw [← BitVec.toNat_inj, ← BitVec.toNat_inj, toNat_headerWord_a, toNat_headerId29_a, toNat_extractLsb'_eq,
    BitVec.toNat_zero]
  omega

/-- A word of variant B is the header word of its ID where the low three bits are the marker. -/
theorem headerWord_headerId29_b_iff (w : Word32) :
    headerWord .b (headerId29 .b w) = w ↔ w.extractLsb' 0 3 = 0b100#3 := by
  rw [← BitVec.toNat_inj, ← BitVec.toNat_inj, toNat_headerWord_b, toNat_headerId29_b, toNat_extractLsb'_eq,
    show (0b100#3).toNat = 4 from rfl]
  omega

/-- Settles O34: the fixed bits are those that tell a header word of an ID with bit 7 clear. -/
theorem aidPackImageIsExactlyTheFixedBits : Obligations.AidPackImageIsExactlyTheFixedBits := by
  unfold Obligations.AidPackImageIsExactlyTheFixedBits
  intro c h
  rw [exists_exec_aidPack_iff, and_comm]
  cases c.variant with
  | a => exact and_congr (headerWord_headerId29_a_iff _) (by simp [aidOfHeader, headerId29])
  | b => exact and_congr (headerWord_headerId29_b_iff _) (by simp [aidOfHeader, headerId29])

/-- Settles O35: unpacking a packed header finds the ID of its fields, and packing the fields of a header's ID gives
the header back exactly on the image. -/
theorem aidPackAndUnpackAreInverse : Obligations.AidPackAndUnpackAreInverse := by
  unfold Obligations.AidPackAndUnpackAreInverse
  intro s t hv
  refine ⟨fun h hpack hh => ?_, fun ⟨hc, hd⟩ => ?_, fun c g d hunpack hcommand htag hdevice => ?_⟩
  · have hid := aidOfHeader_of_aidPackHeader (exec_aidPack_eq_ok_iff.1 hpack)
    rw [BitVec.setWidth_eq_extractLsb' (by decide)]
    exact exec_aidUnpack_of_fields (hv ▸ hh ▸ hid)
  · exact ⟨_, exec_aidPack_eq_ok_iff.2 (aidPackHeader_of_fields _ hc hd)⟩
  · rw [exec_aidUnpack rfl] at hunpack
    obtain ⟨rfl, rfl, rfl⟩ : id29Command _ = c ∧ id29SenderTag _ = g ∧ id29DeviceId _ = d := by simpa using hunpack
    rw [exists_exec_aidPack_iff, exec_aidPack_eq_ok_iff, hcommand, htag, hdevice, hv, aidPackHeader_fields_iff]

end Sys2Proof.Machine
end

section
/-! The encoders and decoders of the frame: `FRAME.ENC` is `AID.PACK` followed by `ENV.ENC`, `FRAME.DEC` is `ENV.DEC`
followed by `AID.UNPACK`, and each decoder undoes its encoder whatever the fixed bytes
(spec/43_frame_envelope.md R180 to R184). -/

namespace Sys2Proof.Machine

/-! ## Mapped computations -/

theorem map_eq_error_iff {α : Type} {f : α → OutPorts} {r : Except Status α} {st : Status} :
    r.map f = .error st ↔ r = .error st :=
  ⟨error_of_map_error, fun h => h ▸ rfl⟩

/-- An encoder delivers an envelope and its length exactly where it computes that envelope. -/
theorem map_envelopePorts_eq_ok_iff {v : Variant} {r : Except Status (List Byte)} {env : List Byte} {n : Byte} :
    r.map (envelopePorts v) = .ok { env := some env, envLen := some n } ↔
      r = .ok env ∧ BitVec.ofNat 8 (envelopeLength v) = n := by
  constructor
  · intro h
    obtain ⟨e, rfl, hout⟩ := ok_of_map_ok h
    obtain ⟨rfl, rfl⟩ : e = env ∧ BitVec.ofNat 8 (envelopeLength v) = n := by simpa [envelopePorts] using hout
    exact ⟨rfl, rfl⟩
  · rintro ⟨rfl, rfl⟩
    rfl

/-! ## ENV.ENC (R171, R172) -/

theorem dlcAccepts_iff {dlc : Byte} : dlcAccepts dlc = true ↔ dlc = 8#8 := beq_iff_eq

theorem envEncode_of_eight {dlc : Byte} (hd : dlc = 8#8) (c : Cfg) (h : Bytes4) (p : Bytes8) :
    envEncode c dlc h p = .ok (envelopeBytes c h p) := if_pos (dlcAccepts_iff.2 hd)

theorem envEncode_of_ne_eight {dlc : Byte} (hd : dlc ≠ 8#8) (c : Cfg) (h : Bytes4) (p : Bytes8) :
    envEncode c dlc h p = .error .illFormedFrame := if_neg fun ha => hd (dlcAccepts_iff.1 ha)

/-- `ENV.ENC` delivers an envelope exactly where `envEncode` computes it. -/
theorem exec_envEnc_eq_ok_iff {s : State} {env : List Byte} {n : Byte} :
    exec .envEnc s = .next (s.withResponse ⟨.ok, { env := some env, envLen := some n }⟩) ↔
      envEncode s.cfg s.inp.dlc s.inp.h s.inp.payload = .ok env ∧
        BitVec.ofNat 8 (envelopeLength s.cfg.variant) = n :=
  exec_eq_ok_iff.trans map_envelopePorts_eq_ok_iff

/-- Settles O36: the envelope of each variant, byte by byte. -/
theorem envEncLaysOutTheEnvelope : Obligations.EnvEncLaysOutTheEnvelope := by
  unfold Obligations.EnvEncLaysOutTheEnvelope
  intro s
  refine ⟨fun hd hv => ?_, fun hd hv => ?_, fun hd => ?_⟩
  · rw [exec_envEnc_eq_ok_iff, envEncode_of_eight hd, envelopeBytes, hv]
    exact ⟨rfl, rfl⟩
  · rw [exec_envEnc_eq_ok_iff, envEncode_of_eight hd, envelopeBytes, hv]
    exact ⟨rfl, rfl⟩
  · rw [exec_eq_fail_iff (by decide)]
    exact map_eq_error_iff.2 (envEncode_of_ne_eight hd _ _ _)

/-! ## ENV.DEC and FRAME.DEC on a buffer (R175, R182, R184) -/

/-- `ENV.DEC` delivers the header and the payload that `envDecode` finds, and only those. -/
theorem exec_envDec_eq_ok_iff {s : State} {h : Bytes4} {p : Bytes8} :
    exec .envDec s = .next (s.withResponse ⟨.ok, { dlc := some 8#8, h := some h, payload := some p }⟩) ↔
      envDecode s.cfg.variant s.inp.buf.bytes = .ok (h, p) := by
  rw [exec_eq_ok_iff, resultOf]
  refine ⟨fun hmap => ?_, fun hok => by rw [hok]; rfl⟩
  obtain ⟨⟨h', p'⟩, hok, hout⟩ := ok_of_map_ok hmap
  obtain ⟨rfl, -, rfl⟩ : h' = h ∧ dlcLit = 8#8 ∧ p' = p := by simpa using hout
  exact hok

/-- `FRAME.DEC` delivers the fields of the header and the payload that `envDecode` finds. -/
theorem exec_frameDec_of_envDecode {s : State} {h : Bytes4} {p : Bytes8}
    (hdec : envDecode s.cfg.variant s.inp.buf.bytes = .ok (h, p)) :
    exec .frameDec s = .next (s.withResponse ⟨.ok, framePorts s.cfg.variant h p⟩) := by
  rw [exec_eq_ok_iff, resultOf, hdec]
  rfl

/-- Both decoders read the buffer through `envDecode`. -/
theorem resultOf_envDec_or_frameDec {i : Instr} (hi : i = .envDec ∨ i = .frameDec) (c : Cfg) (r : Request) :
    ∃ f, resultOf i c r = (envDecode c.variant r.buf.bytes).map f := by
  obtain rfl | rfl := hi
  · exact ⟨_, rfl⟩
  · exact ⟨_, rfl⟩

/-- Settles O38: `envDecode` fails exactly on a wrong length or a wrong marker. -/
theorem malformedFrameExactlyOnLengthOrMarker : Obligations.MalformedFrameExactlyOnLengthOrMarker := by
  unfold Obligations.MalformedFrameExactlyOnLengthOrMarker
  intro s i hi bad
  obtain ⟨f, hres⟩ := resultOf_envDec_or_frameDec hi s.cfg s.inp
  have hbad : bad ↔ (s.inp.buf.bytes.length ≠ envelopeLength s.cfg.variant ∨
      s.inp.buf.bytes[dlcOffset s.cfg.variant]? ≠ some dlcLit) := by
    unfold bad
    cases s.cfg.variant <;> rfl
  rw [hbad]
  refine ⟨fun hmis => ?_, fun hmatch => ?_⟩
  · rw [exec_eq_fail_iff (by decide), hres, map_eq_error_iff]
    exact envDecode_of_mismatch hmis
  · rw [not_or, not_not, not_not] at hmatch
    obtain ⟨hlength, hmarker⟩ := hmatch
    obtain ⟨h, p, hdec, -, -⟩ := envDecode_of_match hlength hmarker
    exact ⟨f (h, p), exec_eq_ok_iff.2 (by rw [hres, hdec]; rfl)⟩

/-- Settles O40: both go through `envDecode`, and the fields are those of the header found. -/
theorem frameDecIsEnvDecThenAidUnpack : Obligations.FrameDecIsEnvDecThenAidUnpack := by
  unfold Obligations.FrameDecIsEnvDecThenAidUnpack
  intro s
  refine ⟨fun h p c g d henv haid => ?_, ?_⟩
  · rw [exec_aidUnpack (s := { s with inp := { s.inp with h := h } }) rfl] at haid
    obtain ⟨rfl, rfl, rfl⟩ : id29Command _ = c ∧ id29SenderTag _ = g ∧ id29DeviceId _ = d := by simpa using haid
    exact exec_frameDec_of_envDecode (exec_envDec_eq_ok_iff.1 henv)
  · rw [exec_eq_fail_iff (by decide), exec_eq_fail_iff (by decide), resultOf, resultOf, map_eq_error_iff,
      map_eq_error_iff]

/-! ## FRAME.ENC (R180, R181) -/

/-- `FRAME.ENC` computes an envelope exactly where `AID.PACK` gives a header that `ENV.ENC` puts in it. -/
theorem frameEncode_eq_ok_iff {c : Cfg} {dlc cm d : Byte} {g : BitVec 16} {p : Bytes8} {env : List Byte} :
    frameEncode c dlc cm g d p = .ok env ↔
      ∃ h, aidPackHeader c.variant cm g d = .ok h ∧ envEncode c dlc h p = .ok env := by
  unfold frameEncode
  by_cases hd : dlc = 8#8
  · rw [dlcAccepts_iff.2 hd]
    cases aidPackHeader c.variant cm g d with
    | error st => simp
    | ok h => simp
  · rw [Bool.eq_false_iff.2 fun ha => hd (dlcAccepts_iff.1 ha)]
    simp [envEncode_of_ne_eight hd]

/-- `FRAME.ENC` delivers an envelope exactly where `frameEncode` computes it. -/
theorem exec_frameEnc_eq_ok_iff {s : State} {env : List Byte} {n : Byte} :
    exec .frameEnc s = .next (s.withResponse ⟨.ok, { env := some env, envLen := some n }⟩) ↔
      frameEncode s.cfg s.inp.dlc s.inp.command s.inp.senderTag s.inp.deviceId s.inp.payload = .ok env ∧
        BitVec.ofNat 8 (envelopeLength s.cfg.variant) = n :=
  exec_eq_ok_iff.trans map_envelopePorts_eq_ok_iff

/-- A well-formed frame is encoded to the envelope of its header. -/
theorem frameEncode_of_fields {dlc cm d : Byte} (c : Cfg) (g : BitVec 16) (p : Bytes8) (hd : dlc = 8#8)
    (hc : cm.toNat ≤ 31) (hid : d.toNat ≤ 127) : ∃ h, aidPackHeader c.variant cm g d = .ok h ∧
      frameEncode c dlc cm g d p = .ok (envelopeBytes c h p) := by
  have hpack := aidPackHeader_of_fields (v := c.variant) g hc hid
  exact ⟨_, hpack, frameEncode_eq_ok_iff.2 ⟨_, hpack, envEncode_of_eight hd _ _ _⟩⟩

/-- Any other frame is refused (spec/30_encoding.md R66). -/
theorem frameEncode_of_excess {dlc cm d : Byte} (c : Cfg) (g : BitVec 16) (p : Bytes8)
    (h : dlc ≠ 8#8 ∨ 31 < cm.toNat ∨ 127 < d.toNat) : frameEncode c dlc cm g d p = .error .illFormedFrame := by
  cases hres : frameEncode c dlc cm g d p with
  | error st => rw [frameEncode_error hres]
  | ok env =>
    obtain ⟨hd, hpack, henv⟩ := frameEncode_eq_ok_iff.1 hres
    rcases h with hdlc | hfields
    · rw [envEncode_of_ne_eight hdlc] at henv
      cases henv
    · rw [aidPackHeader_of_excess g hfields] at hpack
      cases hpack

/-- Settles O39: the two operations one after the other, and the frames they accept. -/
theorem frameEncIsAidPackThenEnvEnc : Obligations.FrameEncIsAidPackThenEnvEnc := by
  unfold Obligations.FrameEncIsAidPackThenEnvEnc
  intro s env n
  refine ⟨?_, fun hexcess => ?_, fun ⟨hd, hc, hid⟩ => ?_⟩
  · rw [exec_frameEnc_eq_ok_iff, frameEncode_eq_ok_iff, ← exists_and_right]
    simp only [exec_aidPack_eq_ok_iff, exec_envEnc_eq_ok_iff, and_assoc]
  · rw [exec_eq_fail_iff (by decide)]
    exact map_eq_error_iff.2 (frameEncode_of_excess _ _ _ hexcess)
  · obtain ⟨h, -, henc⟩ := frameEncode_of_fields s.cfg s.inp.senderTag s.inp.payload hd hc hid
    exact ⟨_, _, exec_frameEnc_eq_ok_iff.2 ⟨henc, rfl⟩⟩

/-! ## The round trip (R183) -/

/-- The length port holds the length of the envelope. -/
theorem toNat_envLen (c : Cfg) (h : Bytes4) (p : Bytes8) :
    (BitVec.ofNat 8 (envelopeLength c.variant)).toNat = (envelopeBytes c h p).length := by
  rw [length_envelopeBytes]
  cases c.variant <;> rfl

/-- `FRAME.DEC` finds a packed header's fields in the envelope of any configuration of its variant. -/
theorem exec_frameDec_of_envelope {s : State} {c : Cfg} {h : Bytes4} {p : Bytes8} {cm d : Byte} {g : BitVec 16}
    (hb : s.inp.buf.bytes = envelopeBytes c h p) (hv : c.variant = s.cfg.variant)
    (hpack : aidPackHeader c.variant cm g d = .ok h) :
    exec .frameDec s = .next (s.withResponse ⟨.ok,
      { dlc := some 8#8, command := some (cm.extractLsb' 0 5), senderTag := some g, deviceId := some d,
        payload := some p }⟩) := by
  have hdec : envDecode s.cfg.variant s.inp.buf.bytes = .ok (h, p) := by rw [hb, ← hv, envDecode_envelopeBytes]
  rw [exec_frameDec_of_envDecode hdec, framePorts, ← hv, aidOfHeader_of_aidPackHeader hpack, id29Command_id29,
    id29SenderTag_id29, id29DeviceId_id29]
  rfl

/-- Settles O41: the encoded envelope, whatever its fixed bytes, decodes to the header and the payload put in it, and
that header to the fields packed in it. -/
theorem frameRoundTripInBothVariants : Obligations.FrameRoundTripInBothVariants := by
  unfold Obligations.FrameRoundTripInBothVariants
  intro s t hv hd
  constructor
  · intro hc hid
    obtain ⟨h, hpack, henc⟩ := frameEncode_of_fields s.cfg s.inp.senderTag s.inp.payload hd hc hid
    refine ⟨_, _, exec_frameEnc_eq_ok_iff.2 ⟨henc, rfl⟩, toNat_envLen _ _ _, fun hbuf => ?_⟩
    rw [hd, BitVec.setWidth_eq_extractLsb' (by decide)]
    exact exec_frameDec_of_envelope hbuf hv hpack
  · refine ⟨_, _, exec_envEnc_eq_ok_iff.2 ⟨envEncode_of_eight hd _ _ _, rfl⟩, toNat_envLen _ _ _, fun hbuf => ?_⟩
    exact exec_envDec_of_envelope hbuf hv

end Sys2Proof.Machine
end

section
/-! The fixed-point codec: the refusals, the bound, the ends of the range and the monotonicity of `QUANT` and `DEQUANT`
(spec/40_fixed_point_codec.md R102 to R110). -/

namespace Sys2Proof.Machine

/-! ## The refusals (R102) -/

/-- Validity of a range written out (spec/00_scope.md R12). -/
theorem rangeValid_iff {r : PhysicalRange} : rangeValid binary64 r = true ↔
    (r.bits.toNat = 8 ∨ r.bits.toNat = 16 ∨ r.bits.toNat = 32) ∧ fpIsFinite r.min = true ∧ fpIsFinite r.max = true ∧
      fpLt r.min r.max = true ∧ fpIsFinite (fpSub r.max r.min) = true ∧
      fpIsFinite (fpMul (fpSub r.max r.min) (fpOfNat (2 ^ r.bits.toNat - 1))) = true := by
  have hbits (n : BitVec 6) : r.bits = n ↔ r.bits.toNat = n.toNat := BitVec.toNat_inj.symm
  simp only [rangeValid, legalBits, maxCode, Bool.and_eq_true, Bool.or_eq_true, beq_iff_eq, hbits, binary64_isFinite,
    binary64_lt, binary64_sub, binary64_mul, binary64_ofNat, and_assoc, or_assoc]
  rfl

/-- `QUANT` on a range that is not valid answers `InvalidRange`. -/
theorem exec_quant_of_invalid {s : State} (hv : rangeValid binary64 s.inp.range = false) :
    exec .quant s = .next (s.withResponse ⟨.invalidRange, OutPorts.undefined⟩) := by
  rw [exec_eq_fail_iff (by decide), resultOf, quantResult, quantize_of_invalid _ hv]
  rfl

/-- `QUANT` of a NaN over a valid range answers `InvalidOperand`. -/
theorem exec_quant_of_nan {s : State} (hv : rangeValid binary64 s.inp.range = true) (hx : fpIsNaN s.inp.x = true) :
    exec .quant s = .next (s.withResponse ⟨.invalidOperand, OutPorts.undefined⟩) := by
  rw [exec_eq_fail_iff (by decide), resultOf, quantResult, quantize_of_nan hv hx]
  rfl

/-- Settles O17: the range first, then the operand. -/
theorem invalidRangeAndNaNAreRefusedInOrder : Obligations.InvalidRangeAndNaNAreRefusedInOrder := by
  unfold Obligations.InvalidRangeAndNaNAreRefusedInOrder
  intro s valid
  have hvalid : valid ↔ rangeValid binary64 s.inp.range = true := (rangeValid_iff (r := s.inp.range)).symm
  rw [hvalid, Bool.not_eq_true]
  exact ⟨fun hv => ⟨exec_quant_of_invalid hv, exec_dequant_of_invalid hv⟩, exec_quant_of_nan,
    fun hv hx => ⟨_, exec_quant_of_valid hv hx⟩, fun hv => ⟨_, exec_dequant_of_valid hv⟩⟩

/-! ## The code (R103, R105) -/

/-- The code on the result port is the floor itself: the bound of R105 leaves nothing to wrap. -/
theorem toNat_code {r : PhysicalRange} {x : F64} (hv : rangeValid binary64 r = true) (hx : fpIsNaN x = false) :
    (BitVec.ofNat 32 (fpFloorToNat (quantScaled binary64 r x))).toNat = fpFloorToNat (quantScaled binary64 r x) := by
  have hr := rangeFacts_of_valid hv
  have hle := quantScaled_le hr hx
  have hM := maxCode_lt hr
  exact Nat.mod_eq_of_lt (lt_of_le_of_lt hle hM)

/-- Settles O18: the written formula, its floor on the port unwrapped, and the bound. -/
theorem quantDeliversTheTruncatedCode : Obligations.QuantDeliversTheTruncatedCode := by
  unfold Obligations.QuantDeliversTheTruncatedCode
  intro s
  refine ⟨exec_quant_of_invalid, exec_quant_of_nan, fun hv hx => ?_⟩
  have hcode := toNat_code hv hx
  exact ⟨_, exec_quant_of_valid hv hx, hcode.trans (congrArg fpFloorToNat (quantScaled_eq _ _)),
    hcode.trans_le (quantScaled_le (rangeFacts_of_valid hv) hx)⟩

/-! ## At and below the minimum (R104) -/

/-- A difference of zero scales to the code 0. -/
theorem fpFloorToNat_scale_zero {r : PhysicalRange} (h : RangeFacts r) {d : F64} (hd : fpMag d = 0) :
    fpFloorToNat (fpDiv (fpMul d (fpOfNat (maxCode r.bits))) (fpSub r.max r.min)) = 0 := by
  have hM : maxCode r.bits < 2 ^ 53 := (maxCode_lt h).trans (by decide)
  have hdf : fpIsFinite d = true := fpIsFinite_iff.2 (hd ▸ by decide)
  have hmul : fpMag (fpMul d (fpOfNat (maxCode r.bits))) = 0 := by
    rw [fpMag_fpMul_code hdf hM, fpUnits_eq_zero.2 hd, Nat.zero_mul, fpRound_zero]
  have hdiv : fpMag (fpDiv (fpMul d (fpOfNat (maxCode r.bits))) (fpSub r.max r.min)) = 0 := by
    rw [(fpDiv_finite (fpIsFinite_iff.2 (hmul ▸ by decide)) h.span (fpMag_span_ne_zero h)).1, fpUnits_eq_zero.2 hmul,
      Nat.zero_mul, fpRound_zero]
  rw [fpFloorToNat, fpUnits_eq_zero.2 hdiv, Nat.zero_div]

/-- An operand that is not above the minimum clamps to the value of the minimum, and scales to 0. -/
theorem fpFloorToNat_quantScaled_of_not_above {r : PhysicalRange} (h : RangeFacts r) {x : F64} (hx : fpIsNaN x = false)
    (hlow : fpLt r.min x = false) : fpFloorToNat (quantScaled binary64 r x) = 0 := by
  have hmin := not_nan_of_finite h.minFinite
  obtain ⟨hfin, hge, -⟩ := clampPhysical_spec h hx
  have hkey : fpKey x ≤ fpKey r.min := not_lt.1 fun hc => Bool.eq_false_iff.1 hlow ((fpLt_iff hmin hx).2 hc)
  have hle := fpKey_le_iff.1 (clampPhysical_mono h hx hmin hkey)
  rw [clampPhysical_min h] at hle
  rw [quantScaled_eq]
  refine fpFloorToNat_scale_zero h ?_
  rw [(fpSub_finite hfin h.minFinite).1, le_antisymm hle hge, sub_self]
  exact fpRound_zero 1

/-- Settles O20: the operand clamps to the value of the minimum. -/
theorem quantAtOrBelowMinimumIsZero : Obligations.QuantAtOrBelowMinimumIsZero := by
  unfold Obligations.QuantAtOrBelowMinimumIsZero
  intro s hv hx hlow
  rw [exec_quant_of_valid hv hx, fpFloorToNat_quantScaled_of_not_above (rangeFacts_of_valid hv) hx hlow]

/-! ## The ends of DEQUANT (R107) -/

/-- A pattern with no magnitude bits and a clear sign is +0. -/
theorem eq_zero_of_fpMag_fpSign {x : F64} (hm : fpMag x = 0) (hs : fpSign x = false) : x = 0#64 := by
  rw [← fpPack_fpSign_fpMag x, hm, hs]
  rfl

/-- The span of a valid range is positive. -/
theorem fpSign_span {r : PhysicalRange} (h : RangeFacts r) : fpSign (fpSub r.max r.min) = false := by
  have ho := h.ordered
  rw [(fpSub_finite h.maxFinite h.minFinite).2 (by omega)]
  exact decide_eq_false (by omega)

/-- +0 times a finite value that is not negative is +0. -/
theorem fpMul_zero_left {d : F64} (hd : fpIsFinite d = true) (hs : fpSign d = false) : fpMul 0#64 d = 0#64 := by
  have hz : fpIsFinite 0#64 = true := by decide
  obtain ⟨hm, hsign⟩ := fpMul_finite hz hd
  refine eq_zero_of_fpMag_fpSign (hm.trans ?_) (hsign.trans (by rw [hs]; rfl))
  rw [fpUnits_eq_zero.2 (show fpMag 0#64 = 0 from rfl), Nat.zero_mul, fpRound_zero]

/-- +0 over a code that is not zero is +0. -/
theorem fpDiv_zero_code {m : Nat} (hm : m < 2 ^ 53) (h0 : 0 < m) : fpDiv 0#64 (fpOfNat m) = 0#64 := by
  have hz : fpIsFinite 0#64 = true := by decide
  have hne : fpMag (fpOfNat m) ≠ 0 := fun hc => by
    have hu := fpUnits_eq_zero.2 hc
    rw [fpUnits_fpOfNat hm] at hu
    exact (Nat.mul_pos h0 (by positivity)).ne' hu
  obtain ⟨hmag, hsign⟩ := fpDiv_finite hz (fpIsFinite_fpOfNat hm) hne
  refine eq_zero_of_fpMag_fpSign (hmag.trans ?_) (hsign.trans (by rw [fpSign_fpOfNat]; rfl))
  rw [fpUnits_eq_zero.2 (show fpMag 0#64 = 0 from rfl), Nat.zero_mul, fpRound_zero]

theorem fpOfNat_zero : fpOfNat 0 = 0#64 := by
  rw [fpOfNat, Nat.zero_mul, fpRound_zero]
  rfl

theorem clampCode_zero (bits : BitVec 6) : clampCode bits 0#32 = 0 := if_neg (Nat.not_lt_zero _)

/-- The code 0 gives the minimum plus +0. -/
theorem dequantValue_zero {r : PhysicalRange} (h : RangeFacts r) :
    dequantValue binary64 r 0#32 = if r.min = 0x8000000000000000#64 then 0#64 else r.min := by
  have hM := maxCode_lt h
  rw [dequantValue_eq, clampCode_zero, fpOfNat_zero, fpMul_zero_left h.span (fpSign_span h),
    fpDiv_zero_code (by omega) (maxCode_pos h), fpAdd_zero h.minFinite]

/-- A code above `M` clamps to `M`. -/
theorem clampCode_of_above {bits : BitVec 6} {u : Word32} (h : maxCode bits < u.toNat) :
    clampCode bits u = maxCode bits := if_pos h

/-- The code `M` is its own clamp. -/
theorem clampCode_maxCode {r : PhysicalRange} (h : RangeFacts r) :
    clampCode r.bits (BitVec.ofNat 32 (maxCode r.bits)) = maxCode r.bits := by
  have hM : (BitVec.ofNat 32 (maxCode r.bits)).toNat = maxCode r.bits := Nat.mod_eq_of_lt (maxCode_lt h)
  rw [clampCode, hM, ite_self]

/-- The dequantized value sees the code through its clamp alone. -/
theorem dequantValue_congr {r : PhysicalRange} {u v : Word32} (h : clampCode r.bits u = clampCode r.bits v) :
    dequantValue binary64 r u = dequantValue binary64 r v := by
  rw [dequantValue_eq, dequantValue_eq, h]

/-- Settles O22: the value of the code 0, and the clamp of a code above `M`. -/
theorem dequantAtZeroAndAboveTheTop : Obligations.DequantAtZeroAndAboveTheTop := by
  unfold Obligations.DequantAtZeroAndAboveTheTop
  intro s hv
  have hr := rangeFacts_of_valid hv
  refine ⟨fun hu => ?_, fun htop => ?_⟩
  · rw [exec_dequant_of_valid hv, hu, dequantValue_zero hr]
    rfl
  · have hclamp : clampCode s.inp.range.bits s.inp.u =
        clampCode s.inp.range.bits (BitVec.ofNat 32 (maxCode s.inp.range.bits)) :=
      (clampCode_of_above htop).trans (clampCode_maxCode hr).symm
    refine ⟨_, exec_dequant_of_valid hv, ?_⟩
    rw [dequantValue_congr hclamp]
    exact exec_dequant_of_valid
      (s := { s with inp := { s.inp with u := BitVec.ofNat 32 (2 ^ s.inp.bits.toNat - 1) } }) hv

/-! ## Monotonicity (R110) -/

/-- The dequantized values are numbers in the order of their codes. -/
theorem dequantValue_mono {r : PhysicalRange} (h : RangeFacts r) {u v : Word32} (huv : u.toNat ≤ v.toNat) :
    fpIsNaN (dequantValue binary64 r u) = false ∧ fpIsNaN (dequantValue binary64 r v) = false ∧
      fpKey (dequantValue binary64 r u) ≤ fpKey (dequantValue binary64 r v) := by
  have hv := clampCode_le r.bits v
  obtain ⟨hufin, hle⟩ := scaledCode_spec h (clampCode_mono r.bits huv) hv
  obtain ⟨hvfin, -⟩ := scaledCode_spec h le_rfl hv
  rw [dequantValue_eq, dequantValue_eq]
  exact fpAdd_mono hufin hvfin h.minFinite hle

/-- Settles O23: the scaled operand and the scaled code grow, and so do their floor and their sum. -/
theorem quantAndDequantAreMonotone : Obligations.QuantAndDequantAreMonotone := by
  unfold Obligations.QuantAndDequantAreMonotone
  intro s t hst hv
  have hr := rangeFacts_of_valid hv
  have hvt : rangeValid binary64 t.inp.range = true := hst ▸ hv
  refine ⟨fun hx hy hxy => ?_, fun huv => ?_⟩
  · have hkey : fpKey s.inp.x ≤ fpKey t.inp.x := not_lt.1 fun hc => Bool.eq_false_iff.1 hxy ((fpLt_iff hy hx).2 hc)
    refine ⟨_, _, exec_quant_of_valid hv hx, exec_quant_of_valid hvt hy, ?_⟩
    rw [toNat_code hv hx, toNat_code hvt hy, ← hst]
    exact quantScaled_mono hr hx hy hkey
  · obtain ⟨hy, hz, hkey⟩ := dequantValue_mono hr huv
    refine ⟨_, _, exec_dequant_of_valid hv, exec_dequant_of_valid hvt, hy, hst ▸ hz, ?_⟩
    rw [← hst]
    exact Bool.eq_false_iff.2 fun hc => not_lt.2 hkey ((fpLt_iff hz hy).1 hc)

/-! ## The range POS (R111, R114) -/

/-- `QUANT` of 0.0 over the range POS, by truncation. -/
theorem quantize_posRange_zero : quantize binary64 Config.posRange 0#64 = .ok 32767 := by decide +kernel

/-- `DEQUANT` of 1 over the range POS. -/
theorem dequantize_posRange_one : dequantize binary64 Config.posRange 1#32 = .ok 0xC028FFCDFFCDFFCE#64 := by
  decide +kernel

/-- `QUANT` of that value: it lies below the first step. -/
theorem quantize_posRange_dequantized : quantize binary64 Config.posRange 0xC028FFCDFFCDFFCE#64 = .ok 0 := by
  decide +kernel

/-- `QUANT` delivers the code that `quantize` computes. -/
theorem exec_quant_of_quantize {s : State} {n : Nat} (h : quantize binary64 s.inp.range s.inp.x = .ok n) :
    exec .quant s = .next (s.withResponse ⟨.ok, { u := some (BitVec.ofNat 32 n) }⟩) := by
  rw [exec_eq_ok_iff, resultOf, quantResult, h]
  rfl

/-- `DEQUANT` delivers the value that `dequantize` computes. -/
theorem exec_dequant_of_dequantize {s : State} {y : F64} (h : dequantize binary64 s.inp.range s.inp.u = .ok y) :
    exec .dequant s = .next (s.withResponse ⟨.ok, { y := some y }⟩) := by
  rw [exec_eq_ok_iff, resultOf, h]
  rfl

/-- Settles O24: three evaluations over the range POS. -/
theorem quantizingADequantizedCodeCanLoseOne : Obligations.QuantizingADequantizedCodeCanLoseOne := by
  unfold Obligations.QuantizingADequantizedCodeCanLoseOne
  intro s hrange
  have hpos : s.inp.range = Config.posRange := hrange
  refine ⟨fun hx => ?_, fun hu => ?_, fun hx => ?_⟩
  · exact exec_quant_of_quantize (by rw [hpos, hx]; exact quantize_posRange_zero)
  · exact exec_dequant_of_dequantize (by rw [hpos, hu]; exact dequantize_posRange_one)
  · exact exec_quant_of_quantize (by rw [hpos, hx]; exact quantize_posRange_dequantized)

end Sys2Proof.Machine
end

section
/-! The classifier: the two fault layouts bit by bit, the telemetry in the configured ranges, and `RX.DECODE` put
together from them (spec/44_fault_classifier.md R200 to R215). -/

namespace Sys2Proof.Machine

/-! ## FLT.STATUS (R202, R203) -/

/-- `FLT.STATUS` completes on every word with its classification. -/
theorem exec_fltStatus (s : State) : exec .fltStatus s =
    .next (s.withResponse ⟨.ok, OutPorts.undefined.withStatusFaults (classifyStatus s.inp.statusWord)⟩) := rfl

/-- Bit `k` of the fault set is bit `k` of the word. -/
theorem getLsbD_statusFaultSet (w : BitVec 16) {k : Nat} (hk : k < 6) :
    (statusFaultSet w).getLsbD k = w.getLsbD k := by
  rw [statusFaultSet, BitVec.getLsbD_extractLsb', Nat.zero_add, decide_eq_true hk, Bool.true_and]

/-- The fault flag is the OR of the six fault bits (D21). -/
theorem statusFault_iff (w : BitVec 16) : statusFault w = true ↔ ∃ k, k < 6 ∧ w.getLsbD k = true := by
  rw [statusFault, bne_iff_ne]
  constructor
  · intro hne
    by_contra hno
    refine hne (BitVec.eq_of_getLsbD_eq fun k hk => ?_)
    rw [getLsbD_statusFaultSet w hk, BitVec.getLsbD_zero]
    exact Bool.eq_false_iff.2 fun hbit => hno ⟨k, hk, hbit⟩
  · rintro ⟨k, hk, hbit⟩ hzero
    rw [← getLsbD_statusFaultSet w hk, hzero, BitVec.getLsbD_zero] at hbit
    cases hbit

/-- The raw mode is bits 7:6 of the word as a number. -/
theorem toNat_statusModeRaw (w : BitVec 16) : (statusModeRaw w).toNat = w.toNat / 64 % 4 :=
  toNat_extractLsb'_eq w 6 2

/-- Settles O43: the fault set, the flag, the raw mode and the decoded mode. -/
theorem fltStatusClassifiesBitByBit : Obligations.FltStatusClassifiesBitByBit := by
  unfold Obligations.FltStatusClassifiesBitByBit
  intro s
  refine ⟨_, _, _, _, exec_fltStatus s, fun k hk => getLsbD_statusFaultSet _ hk, statusFault_iff _,
    toNat_statusModeRaw _, ?_⟩
  have hmode {n : Nat} (h : (statusModeRaw s.inp.statusWord).toNat = n) :
      modeOfRaw (statusModeRaw s.inp.statusWord) = modeOfRaw (BitVec.ofNat 2 n) := by
    rw [← h, BitVec.ofNat_toNat, BitVec.setWidth_eq]
  exact ⟨hmode, hmode, hmode, hmode⟩

/-! ## FLT.REPORT (R206, R207) -/

/-- `FLT.REPORT` completes on every payload with its classification. -/
theorem exec_fltReport (s : State) : exec .fltReport s =
    .next (s.withResponse ⟨.ok, OutPorts.undefined.withReportFaults (classifyReport s.inp.payload)⟩) := rfl

/-- The overload flag says that the mask, as a number, is not zero (D22). -/
theorem reportOverload_eq (p : Bytes8) : reportOverload p = decide (p.b1.toNat ≠ 0) := by
  rw [reportOverload, Bool.eq_iff_iff, bne_iff_ne, decide_eq_true_iff, ne_eq, ne_eq, ← BitVec.toNat_inj,
    BitVec.toNat_zero]

/-- Settles O44: each output is its bits of the payload. -/
theorem fltReportReadsItsBits : Obligations.FltReportReadsItsBits := by
  unfold Obligations.FltReportReadsItsBits
  intro s
  rw [← reportOverload_eq]
  exact exec_fltReport s

/-- Settles O45: each response defines the ports of its own layout, and the two lists are disjoint. -/
theorem theTwoFaultLayoutsShareNoPort : Obligations.TheTwoFaultLayoutsShareNoPort := by
  unfold Obligations.TheTwoFaultLayoutsShareNoPort
  rintro s t q r p hq hr ⟨hqp, hrp⟩
  rw [exec_fltStatus, Host.Outcome.next.injEq, State.withResponse_inj] at hq
  rw [exec_fltReport, Host.Outcome.next.injEq, State.withResponse_inj] at hr
  subst hq hr
  rw [isDefined_of_resultOf_ok (i := .fltStatus) (c := s.cfg) (r := s.inp) rfl, decide_eq_true_iff] at hqp
  rw [isDefined_of_resultOf_ok (i := .fltReport) (c := t.cfg) (r := t.inp) rfl, decide_eq_true_iff] at hrp
  have hdisjoint : ∀ x ∈ statusFaultPorts, x ∉ reportFaultPorts := by decide
  exact hdisjoint p hqp hrp

/-! ## TLM.DEC (R210, R211) -/

/-- `TLM.DEC` delivers the telemetry that `decodeTelemetry` computes. -/
theorem exec_tlmDec_of_decode {s : State} {t : Telemetry}
    (h : decodeTelemetry binary64 s.cfg s.inp.payload = .ok t) :
    exec .tlmDec s = .next (s.withResponse ⟨.ok, OutPorts.undefined.withTelemetry t⟩) := by
  rw [exec_eq_ok_iff, resultOf, h]
  rfl

/-- What `TLM.DEC` delivers is the telemetry that `decodeTelemetry` computes. -/
theorem decode_of_exec_tlmDec {s : State} {out : OutPorts} (h : exec .tlmDec s = .next (s.withResponse ⟨.ok, out⟩)) :
    ∃ t, decodeTelemetry binary64 s.cfg s.inp.payload = .ok t ∧ OutPorts.undefined.withTelemetry t = out :=
  ok_of_map_ok (exec_eq_ok_iff.1 h)

/-- `TLM.DEC` answers `InvalidRange` exactly where the telemetry does not decode. -/
theorem exec_tlmDec_eq_invalidRange_iff {s : State} :
    exec .tlmDec s = .next (s.withResponse ⟨.invalidRange, OutPorts.undefined⟩) ↔
      decodeTelemetry binary64 s.cfg s.inp.payload = .error .invalidRange :=
  (exec_eq_fail_iff (by decide)).trans map_eq_error_iff

/-- `TLM.DEC` over valid ranges, port by port (R211). -/
theorem exec_tlmDec_of_valid {s : State} (hpos : rangeValid binary64 s.cfg.posRange = true)
    (hvel : rangeValid binary64 s.cfg.velRange = true) (htrq : rangeValid binary64 s.cfg.trqRange = true) :
    exec .tlmDec s = .next (s.withResponse ⟨.ok,
      { posU := some (payloadPos s.inp.payload), velU := some (payloadVel s.inp.payload),
        trqU := some (payloadTrq s.inp.payload), tempRaw := some (payloadTemp s.inp.payload),
        pos := some (dequantValue binary64 s.cfg.posRange ((payloadPos s.inp.payload).setWidth 32)),
        vel := some (dequantValue binary64 s.cfg.velRange ((payloadVel s.inp.payload).setWidth 32)),
        trq := some (dequantValue binary64 s.cfg.trqRange ((payloadTrq s.inp.payload).setWidth 32)),
        tempC := some (fpMul (fpOfNat (payloadTemp s.inp.payload).toNat) tenth) }⟩) := by
  rw [exec_tlmDec_of_decode (decodeTelemetry_of_valid _ hpos hvel htrq), binary64_mul, binary64_ofNat]
  rfl

/-- A big-endian field as a number (spec/20_memory.md R43). -/
theorem toNat_be16 (hi lo : Byte) : (be16 hi lo).toNat = 256 * hi.toNat + lo.toNat := by
  rw [be16, toNat_append_eq_add]
  omega

/-- `DEQUANT` of a 16-bit field over a valid range. -/
theorem exec_dequant_of_field {q : State} {r : PhysicalRange} {f : BitVec 16} (hv : rangeValid binary64 r = true)
    (hrange : q.inp.range = r) (hu : q.inp.u.toNat = f.toNat) :
    exec .dequant q = .next (q.withResponse ⟨.ok, { y := some (dequantValue binary64 r (f.setWidth 32)) }⟩) := by
  have hfield : q.inp.u = f.setWidth 32 := by
    apply BitVec.eq_of_toNat_eq
    rw [hu, BitVec.toNat_setWidth_of_le (by decide)]
  exact exec_dequant_of_dequantize (by rw [hrange, hfield, dequantize_of_valid _ hv])

/-- Settles O46: the telemetry of valid ranges, each field the number of its two bytes and dequantized as `DEQUANT`
does. -/
theorem tlmDecDequantizesTheFields : Obligations.TlmDecDequantizesTheFields := by
  unfold Obligations.TlmDecDequantizesTheFields
  intro s
  refine ⟨fun hpos hvel htrq => ?_, fun hbad => ?_⟩
  · exact ⟨_, _, _, _, _, _, _, exec_tlmDec_of_valid hpos hvel htrq, toNat_be16 _ _, toNat_be16 _ _, toNat_be16 _ _,
      toNat_be16 _ _, fun _ => exec_dequant_of_field hpos, fun _ => exec_dequant_of_field hvel,
      fun _ => exec_dequant_of_field htrq⟩
  · exact exec_tlmDec_eq_invalidRange_iff.2 (decodeTelemetry_of_invalid _ hbad)

/-- The position of the middle code over the range POS: half a step, not 0.0. -/
theorem dequantValue_posRange_middle :
    dequantValue binary64 Config.posRange ((0x8000#16).setWidth 32) = 0x3F29001900190000#64 := by decide +kernel

/-- The temperature of the code 0. -/
theorem tempC_zero : fpMul (fpOfNat (0#16).toNat) tenth = 0#64 := by decide +kernel

/-- Settles O47: the fields of the payload, and the two values that the velocity and torque ranges do not enter. -/
theorem scenarioPayloadDecodesToHalfAStep : Obligations.ScenarioPayloadDecodesToHalfAStep := by
  unfold Obligations.ScenarioPayloadDecodesToHalfAStep
  intro s hrange hvel htrq hpayload
  have hpos : s.cfg.posRange = Config.posRange := hrange
  have hvalid : rangeValid binary64 s.cfg.posRange = true := by
    rw [hpos]
    decide +kernel
  have hposU : payloadPos s.inp.payload = 0x8000#16 := by rw [hpayload]; rfl
  have hvelU : payloadVel s.inp.payload = 0x8000#16 := by rw [hpayload]; rfl
  have htrqU : payloadTrq s.inp.payload = 0x8000#16 := by rw [hpayload]; rfl
  have htemp : payloadTemp s.inp.payload = 0#16 := by rw [hpayload]; rfl
  refine ⟨_, exec_tlmDec_of_valid hvalid hvel htrq, ?_⟩
  rw [hposU, hvelU, htrqU, htemp, hpos, dequantValue_posRange_middle, tempC_zero]
  exact ⟨rfl, rfl, rfl, rfl, rfl, rfl⟩

/-- Settles O50: a well-formed configuration has the three ranges valid. -/
theorem wellFormedConfigurationAlwaysDecodesTelemetry : Obligations.WellFormedConfigurationAlwaysDecodesTelemetry := by
  unfold Obligations.WellFormedConfigurationAlwaysDecodesTelemetry
  intro s hwf
  obtain ⟨hpos, hvel, htrq⟩ := valid_of_cfgWellFormed hwf
  exact ⟨_, exec_tlmDec_of_decode (decodeTelemetry_of_valid _ hpos hvel htrq)⟩

/-! ## RX.DECODE (R200, R215) -/

/-- `RX.DECODE` on command 2 delivers the telemetry with the status word and the reply id of the route. -/
theorem exec_rxDecode_motion {s : State} {t : Telemetry} {word : BitVec 16} {replyId : Byte}
    (hc : s.inp.command = 2#8) (hroute : replyRoute s.cfg.replyRoute s.inp.senderTag s.inp.deviceId = (word, replyId))
    (ht : decodeTelemetry binary64 s.cfg s.inp.payload = .ok t) :
    exec .rxDecode s = .next (s.withResponse ⟨.ok, motionPorts replyId t (classifyStatus word)⟩) := by
  rw [exec_eq_ok_iff, resultOf, decodeReply_motion hc, hroute, ht]
  rfl

/-- `RX.DECODE` on command 21 delivers the fault report with the reply id of the route. -/
theorem exec_rxDecode_report {s : State} {word : BitVec 16} {replyId : Byte} (hc : s.inp.command = 21#8)
    (hroute : replyRoute s.cfg.replyRoute s.inp.senderTag s.inp.deviceId = (word, replyId)) :
    exec .rxDecode s = .next (s.withResponse ⟨.ok, reportPorts replyId (classifyReport s.inp.payload)⟩) := by
  rw [exec_eq_ok_iff, resultOf, decodeReply_report hc, hroute]

/-- Settles O48: the two paths put together from their parts, and the commands with none. -/
theorem rxDecodeRunsThePathOfTheCommand : Obligations.RxDecodeRunsThePathOfTheCommand := by
  unfold Obligations.RxDecodeRunsThePathOfTheCommand
  intro s word replyId
  have hroute : replyRoute s.cfg.replyRoute s.inp.senderTag s.inp.deviceId = (word, replyId) := by
    unfold word replyId replyRoute
    cases s.cfg.replyRoute <;> rfl
  refine ⟨fun hc tlm flt q hword htlm hflt => ?_, fun hc htlm => ?_, fun hc rep hrep => ?_, fun h2 h21 => ?_⟩
  · obtain ⟨t, ht, rfl⟩ := decode_of_exec_tlmDec htlm
    obtain rfl : OutPorts.undefined.withStatusFaults (classifyStatus q.inp.statusWord) = flt :=
      Except.ok.inj (exec_eq_ok_iff.1 hflt)
    rw [exec_rxDecode_motion hc hroute ht, hword]
    rfl
  · rw [exec_eq_fail_iff (by decide), resultOf, decodeReply_motion hc, exec_tlmDec_eq_invalidRange_iff.1 htlm]
    rfl
  · obtain rfl : OutPorts.undefined.withReportFaults (classifyReport s.inp.payload) = rep :=
      Except.ok.inj (exec_eq_ok_iff.1 hrep)
    exact exec_rxDecode_report hc hroute
  · rw [exec_eq_fail_iff (by decide)]
    exact decodeReply_other h2 h21

/-- Settles O49: the telemetry of valid ranges decodes, and a fault report always does. -/
theorem rxDecodeCompletes : Obligations.RxDecodeCompletes := by
  unfold Obligations.RxDecodeCompletes
  intro s
  exact ⟨fun hc hpos hvel htrq =>
      ⟨_, exec_rxDecode_motion hc rfl (decodeTelemetry_of_valid _ hpos hvel htrq), rfl⟩,
    fun hc => ⟨_, exec_rxDecode_report hc rfl, rfl⟩⟩

end Sys2Proof.Machine
end
